-- ==== Sys2Proof/Word.lean ====
section
/-! DEFINITION. The word types of the SCU (00_scope.md R3, R8, R13; 10_state.md R21, R27). -/

namespace Sys2Proof

/-- A 32-bit host word, and the width of `VAL` (00_scope.md R8 `VALBITS`). -/
abbrev Word := BitVec 32

/-- One 6-bit symbol (00_scope.md R3, R9). -/
abbrev Symbol := BitVec 6

/-- A character register, 21 bits (00_scope.md R13, `CPBITS`). -/
abbrev CodePoint := BitVec 21

/-- The symbol buffer `SYM[0..19]` (10_state.md R21). -/
abbrev Symbols := Vector Symbol 20

/-- The text buffer `TXT[0..31]` (10_state.md R27). -/
abbrev Text := Vector CodePoint 32

end Sys2Proof
end

