-- ==== Sys2Proof/Syntax.lean ====
section
/-! DEFINITION. The command set: one constructor per row of spec/opcode_table.json (30_encoding.md R75). -/

namespace Sys2Proof

/-- A command of the SCU. The operands are the raw fields of the command word
(30_encoding.md R70, R74): `off` is OFF (7 bits), `wid` is WID (6 bits), `k` is K (3 bits). -/
inductive Instr where
  /-- NOP (45_control.md R200). -/
  | nop
  /-- CLRERR (45_control.md R201). -/
  | clrerr
  /-- CLRSYM (40_bitfield.md R104). -/
  | clrsym
  /-- EXT off, wid (40_bitfield.md R100). -/
  | ext (off : BitVec 7) (wid : BitVec 6)
  /-- INS off, wid (40_bitfield.md R101). -/
  | ins (off : BitVec 7) (wid : BitVec 6)
  /-- XCIPH (41_cipher.md R120). -/
  | xciph
  /-- CSUM (42_checksum.md R130). -/
  | csum
  /-- CSTORE (42_checksum.md R131). -/
  | cstore
  /-- CVER w, the width being the immediate `k` (42_checksum.md R132). -/
  | cver (k : BitVec 3)
  /-- VKIND k (42_checksum.md R133). -/
  | vkind (k : BitVec 3)
  /-- LUTF (43_lut.md R160). -/
  | lutf
  /-- LUTR (43_lut.md R161). -/
  | lutr
  /-- FMT (43_lut.md R162). -/
  | fmt
  /-- PARSE (43_lut.md R165). -/
  | parse
  deriving DecidableEq, Repr

end Sys2Proof
end

