-- ==== Sys2Proof/WellFormed.lean ====
section
/-! DEFINITION. Which commands a command word can stand for (30_encoding.md R72, R73). -/

namespace Sys2Proof

/-- The operands are legal: WID at most 32 in format F (30_encoding.md R72); K in 1..4 for CVER and
in 0..3 for VKIND (30_encoding.md R73). OFF has no illegal value. -/
def Instr.wellFormed : Instr → Bool
  | .nop => true
  | .clrerr => true
  | .clrsym => true
  | .ext _ wid => decide (wid.toNat ≤ 32)
  | .ins _ wid => decide (wid.toNat ≤ 32)
  | .xciph => true
  | .csum => true
  | .cstore => true
  | .cver k => decide (1 ≤ k.toNat ∧ k.toNat ≤ 4)
  | .vkind k => decide (k.toNat ≤ 3)
  | .lutf => true
  | .lutr => true
  | .fmt => true
  | .parse => true

end Sys2Proof
end

