-- ==== Sys2Proof/Decode.lean ====
section
/-! DEFINITION. The command word: decoding (30_encoding.md R70..R78) and encoding. -/

namespace Sys2Proof

/-- Why a word is no command (30_encoding.md R76, R77). -/
inductive DecodeError where
  /-- OP is not one of the assigned opcodes (30_encoding.md R76). -/
  | unassignedOpcode
  /-- RSV, bits 31:22, is nonzero (30_encoding.md R77). -/
  | reservedBits
  /-- An OFF, WID or K that the opcode's format does not admit (30_encoding.md R71..R73, R77). -/
  | illegalFields
  deriving DecidableEq, Repr

/-- OP, bits 5:0 (30_encoding.md R70). -/
def opField (c : Word) : BitVec 6 := c.extractLsb' 0 6

/-- OFF, bits 12:6. -/
def offField (c : Word) : BitVec 7 := c.extractLsb' 6 7

/-- WID, bits 18:13. -/
def widField (c : Word) : BitVec 6 := c.extractLsb' 13 6

/-- K, bits 21:19. -/
def kField (c : Word) : BitVec 3 := c.extractLsb' 19 3

/-- RSV, bits 31:22. -/
def rsvField (c : Word) : BitVec 10 := c.extractLsb' 22 10

/-- Format N: OFF, WID and K are all 0 (30_encoding.md R71). -/
def decodeN (off : BitVec 7) (wid : BitVec 6) (k : BitVec 3) (i : Instr) : Except DecodeError Instr :=
  if off = 0 ∧ wid = 0 ∧ k = 0 then .ok i else .error .illegalFields

/-- Format F: K is 0 and WID is at most 32; OFF is taken as it is (30_encoding.md R72). -/
def decodeF (wid : BitVec 6) (k : BitVec 3) (i : Instr) : Except DecodeError Instr :=
  if k = 0 ∧ wid.toNat ≤ 32 then .ok i else .error .illegalFields

/-- Format K: OFF and WID are 0 and K is in the opcode's range (30_encoding.md R73). -/
def decodeK (off : BitVec 7) (wid : BitVec 6) (k : BitVec 3) (lo hi : Nat) (i : Instr) :
    Except DecodeError Instr :=
  if off = 0 ∧ wid = 0 ∧ lo ≤ k.toNat ∧ k.toNat ≤ hi then .ok i else .error .illegalFields

/-- The opcode map and the format checks (30_encoding.md R75, R76, R71..R73). -/
def decodeOp (op : Nat) (off : BitVec 7) (wid : BitVec 6) (k : BitVec 3) : Except DecodeError Instr :=
  match op with
  | 0x00 => decodeN off wid k .nop
  | 0x01 => decodeN off wid k .clrerr
  | 0x02 => decodeN off wid k .clrsym
  | 0x04 => decodeF wid k (.ext off wid)
  | 0x05 => decodeF wid k (.ins off wid)
  | 0x08 => decodeN off wid k .xciph
  | 0x0C => decodeN off wid k .csum
  | 0x0D => decodeN off wid k .cstore
  | 0x0E => decodeK off wid k 1 4 (.cver k)
  | 0x0F => decodeK off wid k 0 3 (.vkind k)
  | 0x10 => decodeN off wid k .lutf
  | 0x11 => decodeN off wid k .lutr
  | 0x12 => decodeN off wid k .fmt
  | 0x13 => decodeN off wid k .parse
  | _ => .error .unassignedOpcode

/-- Decode a command word, in the order of 30_encoding.md R78: the opcode, the reserved bits, then
the format checks. -/
def decode (c : Word) : Except DecodeError Instr :=
  match decodeOp (opField c).toNat (offField c) (widField c) (kField c) with
  | .error .unassignedOpcode => .error .unassignedOpcode
  | r => if rsvField c = 0 then r else .error .reservedBits

/-- NOP and CLRERR are the opcodes that the sticky latch does not block (30_encoding.md R78). -/
def latchExempt (op : BitVec 6) : Bool := op = 0x00 || op = 0x01

/-- A command word from its fields: OP at bit 0, OFF at bit 6, WID at bit 13, K at bit 19, RSV = 0
(30_encoding.md R70). -/
def assemble (op : BitVec 6) (off : BitVec 7) (wid : BitVec 6) (k : BitVec 3) : Word :=
  BitVec.ofNat 32 (op.toNat + off.toNat * 2 ^ 6 + wid.toNat * 2 ^ 13 + k.toNat * 2 ^ 19)

/-- The word of a command (30_encoding.md R71..R75). -/
def encode : Instr → Word
  | .nop => assemble 0x00 0 0 0
  | .clrerr => assemble 0x01 0 0 0
  | .clrsym => assemble 0x02 0 0 0
  | .ext off wid => assemble 0x04 off wid 0
  | .ins off wid => assemble 0x05 off wid 0
  | .xciph => assemble 0x08 0 0 0
  | .csum => assemble 0x0C 0 0 0
  | .cstore => assemble 0x0D 0 0 0
  | .cver k => assemble 0x0E 0 0 k
  | .vkind k => assemble 0x0F 0 0 k
  | .lutf => assemble 0x10 0 0 0
  | .lutr => assemble 0x11 0 0 0
  | .fmt => assemble 0x12 0 0 0
  | .parse => assemble 0x13 0 0 0

/-- What the decoder reads from an instruction of `nbits` bits whose bits are `w`. Every command is
one 32-bit word (30_encoding.md R70), so bits of `w` past bit 31 make it no command. -/
def decodeTableWord (nbits w : Nat) : Option Instr :=
  if w % 2 ^ nbits < 2 ^ 32 then
    match decode (BitVec.ofNat 32 (w % 2 ^ nbits)) with
    | .ok i => some i
    | .error _ => none
  else none

end Sys2Proof
end

