-- ==== Sys2Proof/Machine/State.lean ====
section
/-! DEFINITION. The state of the SCU (10_state.md R20..R31), what stands at its host port, and the
reasons a step can stop. -/

namespace Sys2Proof.Machine

/-- What a host access asks for (00_scope.md R12 `MemRead`, `MemWrite`). -/
inductive AccessKind where
  /-- Read the register at the offset. -/
  | read
  /-- Write `v` to the register at the offset. -/
  | write (v : Word)
  deriving DecidableEq, Repr

/-- One host access, as the platform hands it to the SCU: a byte offset from `SCU_BASE`, a size in
bytes, and what is asked (00_scope.md R12, 20_memory.md R50, R51). -/
structure Access where
  /-- Byte offset from `SCU_BASE`. -/
  offset : Nat
  /-- Size in bytes. -/
  size : Nat
  /-- Read or write. -/
  kind : AccessKind
  deriving DecidableEq, Repr

/-- What the outside world does to the SCU. -/
inductive HostEvent where
  /-- The host accesses the register window (20_memory.md R50). -/
  | access (a : Access)
  /-- The platform asserts reset (70_reset_and_hazards.md R240). -/
  | reset
  deriving DecidableEq, Repr

/-- What the host port answered in the last step. -/
inductive Response where
  /-- No access was answered. -/
  | idle
  /-- A write was accepted. -/
  | done
  /-- A read returned `v`. -/
  | data (v : Word)
  deriving DecidableEq, Repr

/-- The state: the registers of 10_state.md, then two fields of the model's own (log entries 1, 3). -/
structure State where
  /-- `SYM[0..19]` (10_state.md R21). -/
  sym : Vector (BitVec 6) 20
  /-- `LEN`, 1..20 (10_state.md R22). -/
  len : BitVec 5
  /-- `REGION`, 0 US/PAL, 1 Japan (10_state.md R23). -/
  region : BitVec 1
  /-- `VAL` (10_state.md R24). -/
  val : BitVec 32
  /-- `SUM` (10_state.md R25). -/
  sum : BitVec 8
  /-- `STATUS.ERR`, the error latch (10_state.md R26). -/
  err : BitVec 4
  /-- `TXT[0..31]` (10_state.md R27). -/
  txt : Vector (BitVec 21) 32
  /-- `TLEN`, 0..32 (10_state.md R28). -/
  tlen : BitVec 6
  /-- The model's own: what the outside world does next, in the order it happens (20_memory.md R52;
  log entry 1). DESIGN CHOICE. -/
  inputs : List HostEvent
  /-- The model's own: the answer of the last step at the host port; nothing reads it (log entry 3).
  DESIGN CHOICE. -/
  resp : Response
  deriving DecidableEq, Repr

/-- The machine stops with a fault. No command does. -/
inductive Fault where
  /-- Raised by an access whose offset is past the 4 KiB window: the spec gives the SCU no register
  and no response there (20_memory.md R50, R62; log entry 5). Safe: the run stops. -/
  | outsideWindow
  deriving DecidableEq, Repr

/-- The model has no step. -/
inductive Refusal where
  /-- An instruction of the table without a meaning. Raised by no arm of this model. Safe. -/
  | notModelled (mnemonic : String)
  /-- Raised by an access that is not 32 bits wide or not at a multiple of 4: the SCU changes no
  state and "a model refuses such an access: it has no step" (20_memory.md R51, 60_exceptions.md
  R217; log entry 4). Safe: the run stops. -/
  | busError
  deriving DecidableEq, Repr

/-- The outcome of a step or of a command. -/
abbrev Result := Host.Outcome State Fault Refusal

/-- The machine after reset (10_state.md R31). The last two fields are the model's own. -/
def State.reset : State where
  sym := Vector.replicate 20 0
  len := 20
  region := 0
  val := 0
  sum := 0
  err := 0
  txt := Vector.replicate 32 0
  tlen := 0
  inputs := []
  resp := .idle

def State.setSyms (s : State) (v : Vector (BitVec 6) 20) : State := { s with sym := v }
def State.setLen (s : State) (v : BitVec 5) : State := { s with len := v }
def State.setRegion (s : State) (v : BitVec 1) : State := { s with region := v }
def State.setVal (s : State) (v : BitVec 32) : State := { s with val := v }
def State.setSum (s : State) (v : BitVec 8) : State := { s with sum := v }
def State.setErr (s : State) (v : BitVec 4) : State := { s with err := v }
def State.setTxt (s : State) (v : Vector (BitVec 21) 32) : State := { s with txt := v }
def State.setTlen (s : State) (v : BitVec 6) : State := { s with tlen := v }
def State.setInputs (s : State) (v : List HostEvent) : State := { s with inputs := v }
def State.setResp (s : State) (v : Response) : State := { s with resp := v }

end Sys2Proof.Machine
end

