-- ==== Sys2Proof/Machine/Flags.lean ====
section
/-! DEFINITION. The SCU's only flag, the error latch `STATUS.ERR`, and its codes (10_state.md R26,
60_exceptions.md R211). The spec gives no condition code, carry or overflow flag. -/

namespace Sys2Proof.Machine

/-- The errors an SCU raises (60_exceptions.md R211, codes 1..7; 8..15 are never raised). -/
inductive ErrCode where
  /-- 1: any `CMD` write (30_encoding.md R76, R77). -/
  | illegalCmd
  /-- 2: EXT, INS (40_bitfield.md R102). -/
  | range
  /-- 3: `SYM[i]` write, LUTF, LUTR, PARSE. -/
  | invalidSymbol
  /-- 4: PARSE. -/
  | malformedLength
  /-- 5: VKIND. -/
  | wrongKind
  /-- 6: CVER. -/
  | checksumMismatch
  /-- 7: `LEN` or `TLEN` write. -/
  | badParam
  deriving DecidableEq, Repr

/-- The number of an error in `STATUS.ERR` (60_exceptions.md R211). -/
def ErrCode.code : ErrCode → BitVec 4
  | .illegalCmd => 1
  | .range => 2
  | .invalidSymbol => 3
  | .malformedLength => 4
  | .wrongKind => 5
  | .checksumMismatch => 6
  | .badParam => 7

/-- The latch holds an error: `STATUS.ERR ≠ 0` (10_state.md R32). -/
def latched (s : State) : Bool := !(s.err == 0)

/-- `STATUS` as the host reads it: ERR in bits 3:0, 0 above (10_state.md R26). -/
def statusWord (s : State) : Word := s.err.setWidth 32

end Sys2Proof.Machine
end

