-- ==== Sys2Proof/Config.lean ====
section
/-! DEFINITION. What the spec leaves open: constants with no body, so that nothing can be proved of
a value of theirs (00_scope.md R8; 93_implementation_defined.md I1, I2, I5, I13). The tables built
from them stand in Sys2Proof/Machine/Tables.lean. -/

namespace Sys2Proof

/-- A region (00_scope.md R4). -/
inductive Region where
  /-- US/PAL, `REGION = 0` (10_state.md R23). -/
  | us
  /-- Japan, `REGION = 1`. -/
  | jp
  deriving DecidableEq, Repr

/-- A cipher table: 48 entries of 6 bits (41_cipher.md R123). A constant of the hardware, never a
field of State (10_state.md R29). -/
abbrev CipherTable := Fin 48 → Symbol

/-- An alphabet: 64 characters, indexed by symbol value (43_lut.md R150). A constant, as above. -/
abbrev Alphabet := Fin 64 → CodePoint

/-- The target games of a MemorySecret (44_field_maps.md R186, 90_conflicts.md C9). -/
inductive TargetGame where
  | ages
  | seasons
  deriving DecidableEq, Repr

/-- `CipherUS`, all 48 entries open (41_cipher.md R123, R124; log entry 6). DESIGN CHOICE, safe. -/
opaque Config.cipherUS : Fin 48 → BitVec 6

/-- `CipherJP`, all 48 entries open (41_cipher.md R125; log entry 6). DESIGN CHOICE, safe. -/
opaque Config.cipherJP : Fin 48 → BitVec 6

/-- The entries of `ALPHA[US]` that the source does not settle (43_lut.md R152; log entry 7): read
only at the 36 open symbol values, and only where they make a legal alphabet. DESIGN CHOICE, safe. -/
opaque Config.alphaUSOpen : Fin 64 → BitVec 21

/-- The entries of `ALPHA[JP]` (43_lut.md R153; log entry 7), read only where they make a legal
alphabet. DESIGN CHOICE, safe. -/
opaque Config.alphaJPOpen : Fin 64 → BitVec 21

/-- `SCU_BASE` in units of 4 KiB (20_memory.md R50; log entry 13). DESIGN CHOICE, safe. -/
opaque Config.scuPage : Nat

/-- The MemorySecret masks that the source does not settle, by target game and return flag
(44_field_maps.md R186, decision D38; log entry 14): a parameter of the host, not of the SCU.
DESIGN CHOICE, safe. -/
opaque Config.memoryMaskOpen : TargetGame → Bool → BitVec 2

end Sys2Proof
end

