-- ==== Sys2Proof/Machine/Operands.lean ====
section
/-! DEFINITION. The operands of the commands: immediates (30_encoding.md R72..R74) and the implicit
registers (10_state.md R22, R23, R28). -/

namespace Sys2Proof.Machine

/-- A legal WID, 0..32 (30_encoding.md R72). -/
def legalWidth (wid : BitVec 6) : Bool := decide (wid.toNat ≤ 32)

/-- A legal K of CVER, 1..4 (30_encoding.md R73). -/
def legalCheckWidth (k : BitVec 3) : Bool := decide (1 ≤ k.toNat ∧ k.toNat ≤ 4)

/-- A legal K of VKIND, 0..3 (30_encoding.md R73). -/
def legalKind (k : BitVec 3) : Bool := decide (k.toNat ≤ 3)

/-- The active length as a number (10_state.md R22). -/
def activeLen (s : State) : Nat := s.len.toNat

/-- The index of the last symbol of the active secret, `LEN - 1` (42_checksum.md R131). -/
def lastIndex (s : State) : Nat := s.len.toNat - 1

/-- The field `(off, wid)` lies in the active secret: `off + wid <= 6*LEN`, the sum taken with no
wrap (40_bitfield.md R102). -/
def fieldFits (off : BitVec 7) (wid : BitVec 6) (s : State) : Bool :=
  decide (off.toNat + wid.toNat ≤ 6 * s.len.toNat)

/-- The region that `REGION` selects (10_state.md R23). -/
def activeRegion (s : State) : Region := if s.region = 0 then .us else .jp

/-- The text that PARSE reads, `TXT[0..TLEN-1]` (10_state.md R27, R28). -/
def activeText (s : State) : List CodePoint := s.txt.toList.take s.tlen.toNat

end Sys2Proof.Machine
end

