-- ==== Sys2Proof/Machine/Ops.lean ====
section
/-! DEFINITION. The shared operations: symbols and stream bits (00_scope.md R9..R11), the error
outcome and the clearing of the latch (60_exceptions.md R212, R216), and the issue of a command
under the latch (10_state.md R32, 60_exceptions.md R214). -/

namespace Sys2Proof.Machine

/-- A read of `SYM[i]`. An index past 19 is reached by no legal `LEN`; it reads as 0 (log entry 9). -/
def symAt (m : Symbols) (i : Nat) : Symbol := m[i]?.getD 0

/-- A write of `SYM[i]`. An index past 19 is reached by no legal `LEN`; nothing is written (log
entry 9). -/
def putSym (m : Symbols) (i : Nat) (x : Symbol) : Symbols := m.setIfInBounds i x

/-- Bit `j` of a symbol replaced by `b`. -/
def putBit (x : Symbol) (j : Nat) (b : Bool) : Symbol :=
  if b then x ||| ((1 : Symbol) <<< j) else x &&& ~~~((1 : Symbol) <<< j)

/-- Stream bit `p`: bit `5 - (p mod 6)` of `SYM[p div 6]` (00_scope.md R10). -/
def sbit (m : Symbols) (p : Nat) : Bool := (symAt m (p / 6)).getLsbD (5 - p % 6)

/-- A write of stream bit `p` (00_scope.md R10). -/
def putSbit (m : Symbols) (p : Nat) (b : Bool) : Symbols :=
  putSym m (p / 6) (putBit (symAt m (p / 6)) (5 - p % 6) b)

/-- The value of field `(o, w)`: the sum of `sbit(o+i) * 2^i` over i = 0..w-1, the first stream bit
least significant (00_scope.md R11). -/
def fieldValue (m : Symbols) (o : Nat) : Nat → Nat
  | 0 => 0
  | w + 1 => fieldValue m o w + (sbit m (o + w)).toNat * 2 ^ w

/-- Stream bit `o+i` takes `v[i]` for i = 0..w-1, in that order (40_bitfield.md R101). -/
def insertField (m : Symbols) (o : Nat) (v : Word) : Nat → Symbols
  | 0 => m
  | w + 1 => putSbit (insertField m o v w) (o + w) (v.getLsbD w)

/-- The integer sum of `SYM[0..n-1]`, with no wrap (42_checksum.md R130). -/
def sumFirst (m : Symbols) : Nat → Nat
  | 0 => 0
  | n + 1 => sumFirst m n + (symAt m n).toNat

/-- The error outcome `raise Error(c)`, the SCU's only way of taking an exception: the code is
latched if no earlier one is, and nothing else changes (60_exceptions.md R212, R215). -/
def raise (e : ErrCode) (s : State) : State := if latched s then s else s.setErr e.code

/-- The return from an error: the latch is cleared and nothing else changes (45_control.md R201,
60_exceptions.md R216). -/
def clearLatch (s : State) : State := s.setErr 0

/-- A command that the latch blocks, in the order of 60_exceptions.md R214: under a nonzero latch it
is ignored (R213); with illegal operand fields it raises ILLEGAL_CMD; else it does `body`, its own
checks included. -/
def issue (legal : Bool) (s body : State) : State :=
  if latched s then s else if legal then body else raise .illegalCmd s

end Sys2Proof.Machine
end

