-- ==== Sys2Proof/Machine/Bitfield.lean ====
section
/-! DEFINITION. The bit-field unpacker/packer: EXT, INS, CLRSYM (40_bitfield.md). -/

namespace Sys2Proof.Machine

/-- CLRSYM: all 20 symbols become 0, whatever LEN is (40_bitfield.md R104). -/
def execClrsym (s : State) : Result :=
  .next (issue true s (s.setSyms (Vector.replicate 20 0)))

/-- EXT off, wid: `VAL` takes the field, zero-extended; RANGE where the field passes the active
secret (40_bitfield.md R100, R102). -/
def execExt (off : BitVec 7) (wid : BitVec 6) (s : State) : Result :=
  .next (issue (legalWidth wid) s
    (if fieldFits off wid s then s.setVal (BitVec.ofNat 32 (fieldValue s.sym off.toNat wid.toNat))
     else raise .range s))

/-- INS off, wid: the field takes the low `wid` bits of `VAL`; RANGE, with no symbol changed, where
it passes the active secret (40_bitfield.md R101, R102). -/
def execIns (off : BitVec 7) (wid : BitVec 6) (s : State) : Result :=
  .next (issue (legalWidth wid) s
    (if fieldFits off wid s then s.setSyms (insertField s.sym off.toNat s.val wid.toNat)
     else raise .range s))

end Sys2Proof.Machine
end

