-- ==== Sys2Proof/Machine/Checksum.lean ====
section
/-! DEFINITION. The checksum accumulator and the kind check: CSUM, CSTORE, CVER, VKIND
(42_checksum.md). -/

namespace Sys2Proof.Machine

/-- CSUM: `SUM` takes the sum of all symbols but the last, mod 256 (42_checksum.md R130). -/
def execCsum (s : State) : Result :=
  .next (issue true s (s.setSum (BitVec.ofNat 8 (sumFirst s.sym (lastIndex s)))))

/-- The last symbol with its low nibble from `SUM`, bits 5:4 kept (42_checksum.md R131). -/
def withNibble (x : Symbol) (sum : BitVec 8) : Symbol :=
  (x &&& 0x30) ||| (sum.setWidth 6 &&& 0x0F)

/-- CSTORE: the checksum nibble into the last symbol (42_checksum.md R131). -/
def execCstore (s : State) : Result :=
  .next (issue true s
    (s.setSyms (putSym s.sym (lastIndex s) (withNibble (symAt s.sym (lastIndex s)) s.sum))))

/-- `SUM` and the last symbol agree in their low `w` bits (42_checksum.md R132). -/
def checksumMatches (w : Nat) (s : State) : Bool :=
  decide (s.sum.toNat % 2 ^ w = (symAt s.sym (lastIndex s)).toNat % 2 ^ w)

/-- CVER w: CHECKSUM_MISMATCH where the low `w` bits differ; else nothing (42_checksum.md R132). -/
def execCver (k : BitVec 3) (s : State) : Result :=
  .next (issue (legalCheckWidth k) s
    (if checksumMatches k.toNat s then s else raise .checksumMismatch s))

/-- VKIND k: WRONG_KIND where the field (3,2) is not `k`; else nothing (42_checksum.md R133). -/
def execVkind (k : BitVec 3) (s : State) : Result :=
  .next (issue (legalKind k) s
    (if fieldValue s.sym 3 2 = k.toNat then s else raise .wrongKind s))

end Sys2Proof.Machine
end

