-- ==== Sys2Proof/Machine/Tables.lean ====
section
/-! DEFINITION. The cipher tables and alphabets of the two regions (41_cipher.md R123..R125,
43_lut.md R150..R153), and the reference values the spec gives from general knowledge. -/

namespace Sys2Proof.Machine

/-- `CIPHER[r]` (41_cipher.md R123). -/
def cipherTable : Region → CipherTable
  | .us => Config.cipherUS
  | .jp => Config.cipherJP

/-- The entry of a cipher table at an index. No legal `LEN` reaches past 47 (41_cipher.md R121);
there it is 0 (log entry 9). -/
def keystream (t : CipherTable) (n : Nat) : Symbol := if h : n < 48 then t ⟨n, h⟩ else 0

/-- Entries 0..46 of the reference `CipherUS` (41_cipher.md R124, from general knowledge there). -/
def cipherUSReferenceList : List Symbol :=
  [21, 35, 46, 4, 13, 63, 26, 16, 58, 47, 30, 32, 15, 62, 54, 55] ++
  [9, 41, 59, 49, 2, 22, 61, 56, 40, 19, 52, 50, 1, 11, 10, 53] ++
  [14, 27, 18, 44, 33, 45, 37, 48, 25, 42, 6, 57, 60, 23, 51]

/-- The reference `CipherUS` with `e47` for the entry 47 that stays OPEN (41_cipher.md R124,
90_conflicts.md C6). No step of the machine reads it (log entry 17). PRESUMED, safe. -/
def cipherUSReference (e47 : Symbol) : CipherTable := fun i => cipherUSReferenceList.getD i.val e47

/-- The reference `ALPHA[US]` in symbol order (43_lut.md R152). -/
def alphaUSReferenceList : List CodePoint :=
  [0x42, 0x44, 0x46, 0x47, 0x48, 0x4A, 0x4C, 0x4D, 0x2660, 0x2665, 0x2666, 0x2663, 0x23, 0x4E, 0x51, 0x52] ++
  [0x53, 0x54, 0x57, 0x59, 0x21, 0x25CF, 0x25B2, 0x25A0, 0x2B, 0x2D, 0x62, 0x64, 0x66, 0x67, 0x68, 0x6A] ++
  [0x6D, 0x24, 0x2A, 0x2F, 0x3A, 0x7E, 0x6E, 0x71, 0x72, 0x73, 0x74, 0x77, 0x79, 0x3F, 0x25, 0x26] ++
  [0x28, 0x3D, 0x29, 0x32, 0x33, 0x34, 0x35, 0x36, 0x37, 0x38, 0x39, 0x2191, 0x2193, 0x2190, 0x2192, 0x40]

/-- The reference `ALPHA[US]` (43_lut.md R152): 28 entries settled by the source, 36 from general
knowledge. -/
def alphaUSReference : Alphabet := fun v => alphaUSReferenceList.getD v.val 0

/-- The symbol values whose US character the source settles (43_lut.md R152). -/
def settledSymbols : List (Fin 64) :=
  [0, 3, 4, 6, 9, 10, 13, 15, 18, 21, 26, 30, 32, 36] ++
  [37, 39, 41, 44, 45, 47, 48, 49, 51, 52, 55, 59, 61, 63]

/-- The symbol values whose US character stays open (43_lut.md R152). -/
def openSymbols : List (Fin 64) :=
  [1, 2, 5, 7, 8, 11, 12, 14, 16, 17, 19, 20, 22, 23, 24, 25, 27, 28] ++
  [29, 31, 33, 34, 35, 38, 40, 42, 43, 46, 50, 53, 54, 56, 57, 58, 60, 62]

/-- Ranges of numbers that are no printable character: controls (U+0000 to U+001F, U+007F to U+009F),
white space (U+0020 among it), invisible format characters, surrogates and noncharacters
(43_lut.md R150, R151, R165; 00_scope.md R13; log entry 8). PRESUMED: the spec says "printable", the
ranges are Unicode's. -/
def nonPrintingRanges : List (Nat × Nat) :=
  [(0x0000, 0x0020), (0x007F, 0x00A0), (0x00AD, 0x00AD), (0x061C, 0x061C), (0x1680, 0x1680),
   (0x180E, 0x180E), (0x2000, 0x200F), (0x2028, 0x202F), (0x205F, 0x206F), (0x3000, 0x3000)] ++
  [(0xD800, 0xDFFF), (0xFDD0, 0xFDEF), (0xFEFF, 0xFEFF), (0xFFF9, 0xFFFB), (0xE0000, 0xE0FFF)]

/-- A printable character, by its number: at most U+10FFFF, in none of the ranges above, and no
noncharacter at the end of a plane (43_lut.md R150; log entry 8). -/
def isPrintable (n : Nat) : Bool :=
  decide (n ≤ 0x10FFFF) && decide (n % 0x10000 < 0xFFFE) &&
  nonPrintingRanges.all fun r => !(decide (r.1 ≤ n) && decide (n ≤ r.2))

/-- What every alphabet satisfies: each entry is printable, so none is U+0020 or U+0000 (43_lut.md
R150, R151), and the entries are distinct (R150). -/
def legalAlphabet (a : Alphabet) : Bool :=
  (List.finRange 64).all (fun v => isPrintable (a v).toNat) &&
  decide ((List.finRange 64).map a).Nodup

/-- The US alphabet that the settled entries and the open parameter give together (43_lut.md R152). -/
def alphaUSOverlay : Alphabet := fun v =>
  if v ∈ settledSymbols then alphaUSReference v else Config.alphaUSOpen v

/-- `ALPHA[US]` (43_lut.md R152). A settled entry is the source's. An open entry is the open
parameter's; where that would give no legal alphabet, which the spec rules out, it is the
reference's (log entry 7). -/
def alphaUS : Alphabet := fun v =>
  if v ∈ settledSymbols then alphaUSReference v
  else if legalAlphabet alphaUSOverlay then Config.alphaUSOpen v
  else alphaUSReference v

/-- `ALPHA[JP]` (43_lut.md R153): the open parameter; where it would be no legal alphabet, which the
spec rules out, some legal alphabet (log entry 7). -/
def alphaJP : Alphabet := fun v =>
  if legalAlphabet Config.alphaJPOpen then Config.alphaJPOpen v else alphaUSReference v

/-- `ALPHA[r]` (43_lut.md R150). -/
def alphabet : Region → Alphabet
  | .us => alphaUS
  | .jp => alphaJP

/-- The character of a symbol value, `ALPHA[r][v]` (43_lut.md R150). -/
def glyph (a : Alphabet) (v : Symbol) : CodePoint := a v.toFin

/-- Every symbol value once. The order decides nothing, for the entries are distinct (43_lut.md
R150; log entry 12). -/
def searchOrder : List (Fin 64) := settledSymbols ++ openSymbols

/-- `ALPHA[r]^-1`: the symbol of the character number `c`, none where `c` is no entry (43_lut.md
R150, R154). A number that is not printable never is: a space, U+0000 (R151), a tab or newline
(R165), a number above U+10FFFF (10_state.md R27). -/
def symbolOf (a : Alphabet) (c : Nat) : Option Symbol :=
  if isPrintable c then
    (searchOrder.find? fun v => (a v).toNat == c).map fun v => BitVec.ofFin v
  else none

end Sys2Proof.Machine
end

