-- ==== Sys2Proof/Machine/Cipher.lean ====
section
/-! DEFINITION. The XOR cipher engine: XCIPH (41_cipher.md). -/

namespace Sys2Proof.Machine

/-- The engine key `SYM[0] >> 3`, 0..7 (41_cipher.md R120; 90_conflicts.md C3). -/
def engineKey (m : Symbols) : Symbol := symAt m 0 >>> 3

/-- Symbols 0..n-1 XORed with the keystream from index `pos` (41_cipher.md R120, the loop). -/
def xorStream (t : CipherTable) (pos n : Nat) (m : Symbols) : Symbols :=
  Vector.ofFn fun i => if i.val < n then m[i] ^^^ keystream t (pos + i.val) else m[i]

/-- The whole of XCIPH on the first `n` symbols: XOR from index `4 * key`, then the top 3 bits of
symbol 0 back to the key (41_cipher.md R120). -/
def xcipher (t : CipherTable) (n : Nat) (m : Symbols) : Symbols :=
  let x := xorStream t (4 * (engineKey m).toNat) n m
  putSym x 0 ((engineKey m <<< 3) ||| (symAt x 0 &&& 7))

/-- XCIPH: encipher or decipher the active secret with the region's table (41_cipher.md R120,
R122). -/
def execXciph (s : State) : Result :=
  .next (issue true s (s.setSyms (xcipher (cipherTable (activeRegion s)) (activeLen s) s.sym)))

end Sys2Proof.Machine
end

