-- ==== Sys2Proof/Machine/Control.lean ====
section
/-! DEFINITION. The control commands NOP and CLRERR (45_control.md). -/

namespace Sys2Proof.Machine

/-- NOP: nothing, whatever ERR holds (45_control.md R200). -/
def execNop (s : State) : Result := .next s

/-- CLRERR: clear the latch, whatever ERR holds (45_control.md R201). -/
def execClrerr (s : State) : Result := .next (clearLatch s)

end Sys2Proof.Machine
end

