-- ==== Sys2Proof/Machine/Lut.lean ====
section
/-! DEFINITION. The symbol-to-character look-up table: LUTF, LUTR, FMT, PARSE (43_lut.md). -/

namespace Sys2Proof.Machine

/-- LUTF: `VAL` takes the character of the symbol `VAL`; INVALID_SYMBOL above 63 (43_lut.md R160). -/
def execLutf (s : State) : Result :=
  .next (issue true s
    (if s.val.toNat ≤ 63 then
       s.setVal ((glyph (alphabet (activeRegion s)) (s.val.setWidth 6)).setWidth 32)
     else raise .invalidSymbol s))

/-- LUTR: `VAL` takes the symbol of the character `VAL`; INVALID_SYMBOL where it is no entry
(43_lut.md R161). -/
def execLutr (s : State) : Result :=
  .next (issue true s
    (match symbolOf (alphabet (activeRegion s)) s.val.toNat with
     | some v => s.setVal (v.setWidth 32)
     | none => raise .invalidSymbol s))

/-- The grouped text of the first `n` symbols: a space before every symbol whose index is a positive
multiple of 5 (43_lut.md R162). -/
def groupedText (a : Alphabet) (m : Symbols) : Nat → List CodePoint
  | 0 => []
  | n + 1 =>
    groupedText a m n ++ (if 0 < n ∧ n % 5 = 0 then [0x20] else []) ++ [glyph a (symAt m n)]

/-- A text written from `TXT[0]` on; the registers past it keep their value (43_lut.md R162). -/
def writeText (old : Text) (cs : List CodePoint) : Text :=
  Vector.ofFn fun j => cs.getD j.val old[j]

/-- FMT: the active secret as grouped text, its length in `TLEN` (43_lut.md R162, R163). -/
def execFmt (s : State) : Result :=
  let text := groupedText (alphabet (activeRegion s)) s.sym (activeLen s)
  .next (issue true s ((s.setTxt (writeText s.txt text)).setTlen (BitVec.ofNat 6 text.length)))

/-- The symbols of a text, spaces dropped; none where some other character is no alphabet entry
(43_lut.md R165). -/
def parseText (a : Alphabet) : List CodePoint → Option (List Symbol)
  | [] => some []
  | c :: cs =>
    if c = 0x20 then parseText a cs
    else match symbolOf a c.toNat with
      | none => none
      | some v => (parseText a cs).map fun vs => v :: vs

/-- Symbols 0..n-1 taken from a list of values, n being its length (43_lut.md R165). -/
def loadSyms (m : Symbols) (vs : List Symbol) : Symbols :=
  Vector.ofFn fun i => vs.getD i.val m[i]

/-- PARSE: the text's symbols into the active secret; INVALID_SYMBOL before MALFORMED_LENGTH, and on
either nothing is written (43_lut.md R165, R166). -/
def execParse (s : State) : Result :=
  .next (issue true s
    (match parseText (alphabet (activeRegion s)) (activeText s) with
     | none => raise .invalidSymbol s
     | some vs =>
       if vs.length = activeLen s then s.setSyms (loadSyms s.sym vs) else raise .malformedLength s))

end Sys2Proof.Machine
end

