-- ==== Sys2Proof/Machine/Dispatch.lean ====
section
/-! DEFINITION. The meaning of every command (30_encoding.md R75). -/

namespace Sys2Proof.Machine

def exec (i : Instr) (s : State) : Host.Outcome State Fault Refusal :=
  match i with
  | .nop => Sys2Proof.Machine.execNop s
  | .clrerr => Sys2Proof.Machine.execClrerr s
  | .clrsym => Sys2Proof.Machine.execClrsym s
  | .ext off wid => Sys2Proof.Machine.execExt off wid s
  | .ins off wid => Sys2Proof.Machine.execIns off wid s
  | .xciph => Sys2Proof.Machine.execXciph s
  | .csum => Sys2Proof.Machine.execCsum s
  | .cstore => Sys2Proof.Machine.execCstore s
  | .cver k => Sys2Proof.Machine.execCver k s
  | .vkind k => Sys2Proof.Machine.execVkind k s
  | .lutf => Sys2Proof.Machine.execLutf s
  | .lutr => Sys2Proof.Machine.execLutr s
  | .fmt => Sys2Proof.Machine.execFmt s
  | .parse => Sys2Proof.Machine.execParse s

end Sys2Proof.Machine
end

