-- ==== Sys2Proof/Machine/RegisterMap.lean ====
section
/-! DEFINITION. The register window (10_state.md R36): offsets, reads, and the writes that are no
command (10_state.md R22..R28; 20_memory.md R55). -/

namespace Sys2Proof.Machine

/-- What stands at an offset of the window (10_state.md R36). -/
inductive Reg where
  | cmd
  | status
  | len
  | region
  | val
  | sum
  | tlen
  | sym (i : Fin 20)
  | txt (i : Fin 32)
  /-- A reserved word. -/
  | reserved
  deriving DecidableEq, Repr

/-- The register at a byte offset that is a multiple of 4 (10_state.md R36). -/
def regAt (offset : Nat) : Reg :=
  match offset with
  | 0x000 => .cmd
  | 0x004 => .status
  | 0x008 => .len
  | 0x00C => .region
  | 0x010 => .val
  | 0x014 => .sum
  | 0x018 => .tlen
  | _ =>
    if 0x100 ≤ offset ∧ offset < 0x150 then .sym (Fin.ofNat 20 ((offset - 0x100) / 4))
    else if 0x200 ≤ offset ∧ offset < 0x280 then .txt (Fin.ofNat 32 ((offset - 0x200) / 4))
    else .reserved

/-- The offset of a register; for `reserved`, the first reserved word (10_state.md R36). -/
def regOffset : Reg → Nat
  | .cmd => 0x000
  | .status => 0x004
  | .len => 0x008
  | .region => 0x00C
  | .val => 0x010
  | .sum => 0x014
  | .tlen => 0x018
  | .sym i => 0x100 + 4 * i.val
  | .txt i => 0x200 + 4 * i.val
  | .reserved => 0x01C

/-- What the host reads; bits above a register's width read 0, and so do CMD and the reserved words
(10_state.md R36). -/
def readReg (s : State) : Reg → Word
  | .cmd => 0
  | .status => statusWord s
  | .len => s.len.setWidth 32
  | .region => s.region.setWidth 32
  | .val => s.val
  | .sum => s.sum.setWidth 32
  | .tlen => s.tlen.setWidth 32
  | .sym i => s.sym[i].setWidth 32
  | .txt i => s.txt[i].setWidth 32
  | .reserved => 0

/-- A write of `LEN` (10_state.md R22). -/
def writeLen (v : Word) (s : State) : State :=
  if 1 ≤ v.toNat ∧ v.toNat ≤ 20 then s.setLen (v.setWidth 5) else raise .badParam s

/-- A write of `TLEN` (10_state.md R28). -/
def writeTlen (v : Word) (s : State) : State :=
  if v.toNat ≤ 32 then s.setTlen (v.setWidth 6) else raise .badParam s

/-- A write of `SYM[i]` (20_memory.md R55). -/
def writeSym (i : Fin 20) (v : Word) (s : State) : State :=
  if v.toNat ≤ 63 then s.setSyms (s.sym.set i (v.setWidth 6)) else raise .invalidSymbol s

/-- A host write to a register other than CMD. It acts whatever ERR holds (10_state.md R33); a
read-only register or a reserved word ignores it (10_state.md R36). -/
def writeReg (v : Word) (s : State) : Reg → State
  | .cmd => s
  | .status => s
  | .len => writeLen v s
  | .region => s.setRegion (v.setWidth 1)
  | .val => s.setVal v
  | .sum => s
  | .tlen => writeTlen v s
  | .sym i => writeSym i v s
  | .txt i => s.setTxt (s.txt.set i (v.setWidth 21))
  | .reserved => s

end Sys2Proof.Machine
end

