-- ==== Sys2Proof/Machine/Port.lean ====
section
/-! DEFINITION. The host port: a command write, a register access, a reset (20_memory.md R50..R56,
30_encoding.md R78, 70_reset_and_hazards.md R240). -/

namespace Sys2Proof.Machine

/-- `SCU_BASE`, 4 KiB aligned (20_memory.md R50; log entry 13). -/
def scuBase : Nat := 4096 * Config.scuPage

/-- The platform's routing of a host address to the SCU: the byte offset in the 4 KiB window, none
where the address is not the SCU's (20_memory.md R50). The accesses of a state are already routed. -/
def windowOffset (addr : Nat) : Option Nat :=
  if scuBase ≤ addr ∧ addr < scuBase + 4096 then some (addr - scuBase) else none

/-- A write of the word `c` to CMD, in the order of 30_encoding.md R78: an unassigned opcode or a
reserved bit raises ILLEGAL_CMD; then the latch blocks every opcode but NOP and CLRERR; then an
illegal field raises ILLEGAL_CMD; then the command runs. -/
def runCommand (c : Word) (s : State) : Result :=
  match decode c with
  | .ok i => exec i s
  | .error .unassignedOpcode => .next (raise .illegalCmd s)
  | .error .reservedBits => .next (raise .illegalCmd s)
  | .error .illegalFields =>
    if latched s && !latchExempt (opField c) then .next s else .next (raise .illegalCmd s)

/-- One host access (20_memory.md R50..R56): past the window there is no SCU (log entry 5); another
width or a misaligned offset is refused (R51); a read only answers; a write of CMD runs its command;
another write stores or raises. -/
def hostAccess (a : Access) (s : State) : Result :=
  if 4096 ≤ a.offset then .fault .outsideWindow
  else if a.size ≠ 4 ∨ a.offset % 4 ≠ 0 then .refused .busError
  else match a.kind with
    | .read => .next (s.setResp (.data (readReg s (regAt a.offset))))
    | .write v =>
      match regAt a.offset with
      | .cmd => runCommand v (s.setResp .done)
      | r => .next (writeReg v (s.setResp .done) r)

/-- Reset: every register takes its reset value; what the outside world does next is not the SCU's
to discard (70_reset_and_hazards.md R240; log entry 10). -/
def resetRegisters (s : State) : State := State.reset.setInputs s.inputs

/-- One event at the host port; with none, the SCU is idle and waits (70_reset_and_hazards.md R240;
log entry 2). -/
def hostStep (s : State) : Result :=
  match s.inputs with
  | [] => .next s
  | .reset :: rest => .next (resetRegisters (s.setInputs rest))
  | .access a :: rest => hostAccess a (s.setInputs rest)

/-- The state in which the host's next access is a write of `c` to CMD: the SCU has no program
counter and fetches nothing, so a command is "fetched" from the host's next access (10_state.md R35,
20_memory.md R58; log entry 1). -/
def commandNext (c : Word) (s : State) : State :=
  s.setInputs (.access { offset := 0x000, size := 4, kind := .write c } :: s.inputs)

end Sys2Proof.Machine
end

