-- ==== Sys2Proof/Machine/Step.lean ====
section
/-! DEFINITION. The step: the next event at the host port (20_memory.md R52). -/

namespace Sys2Proof.Machine

/-- One step: the SCU serves the next event of the outside world to completion (20_memory.md R52,
70_reset_and_hazards.md R247). -/
def step (s : State) : Host.Outcome State Fault Refusal := hostStep s

/-- `s` with a write to CMD of the word whose low `nbits` bits are those of `w` as the host's next
access: the SCU takes its command from there (log entry 1). -/
def State.withFetchWord (s : State) (nbits w : Nat) : State :=
  commandNext (BitVec.ofNat 32 (w % 2 ^ nbits)) s

end Sys2Proof.Machine
end

