-- ==== Sys2Proof/Machine/FieldMaps.lean ====
section
/-! DEFINITION. The field layouts of the three secret kinds (44_field_maps.md): tables that the host
uses with EXT and INS. No step of the SCU reads them (00_scope.md R7). -/

namespace Sys2Proof.Machine

/-- The three kinds of secret (00_scope.md R2). -/
inductive SecretKind where
  | game
  | ring
  | memory
  deriving DecidableEq, Repr

/-- The length in symbols (00_scope.md R2, 44_field_maps.md R182). -/
def secretLength : SecretKind → Nat
  | .game => 20
  | .ring => 15
  | .memory => 5

/-- The discriminator's field value, the `k` of VKIND (44_field_maps.md R181; 90_conflicts.md C2). -/
def kindCode : SecretKind → BitVec 3
  | .game => 0
  | .ring => 2
  | .memory => 3

/-- The checksum width, the `w` of CVER (44_field_maps.md R187). -/
def checksumWidth : SecretKind → BitVec 3
  | .game => 4
  | .ring => 3
  | .memory => 3

/-- A field `(offset, width)` of a layout, in stream bits. -/
structure FieldEntry where
  name : String
  off : BitVec 7
  wid : BitVec 6
  deriving DecidableEq, Repr

/-- The fields all kinds begin with (44_field_maps.md R180). -/
def commonFields : List FieldEntry :=
  [⟨"key field", 0, 3⟩, ⟨"discriminator", 3, 2⟩, ⟨"game ID", 5, 15⟩]

/-- The GameSecret layout, stream bits 0..113 (44_field_maps.md R183). -/
def gameFields : List FieldEntry :=
  commonFields ++
  [⟨"hero-quest flag", 20, 1⟩, ⟨"target-game flag", 21, 1⟩, ⟨"hero name byte 0", 22, 8⟩,
   ⟨"child name byte 0", 30, 8⟩, ⟨"hero name byte 1", 38, 8⟩, ⟨"child name byte 1", 46, 8⟩,
   ⟨"behavior", 54, 6⟩, ⟨"hero name byte 2", 60, 8⟩, ⟨"child name byte 2", 68, 8⟩] ++
  [⟨"free-ring flag", 76, 1⟩, ⟨"hero name byte 3", 77, 8⟩, ⟨"animal", 85, 4⟩,
   ⟨"hero name byte 4", 89, 8⟩, ⟨"child name byte 3", 97, 8⟩, ⟨"linked-game flag", 105, 1⟩,
   ⟨"child name byte 4", 106, 8⟩]

/-- The offset of ring mask byte `j + 1`, the document's permuted table (44_field_maps.md R184;
90_conflicts.md C10). -/
def ringByteOffset (j : Fin 8) : BitVec 7 :=
  (#v[20, 28, 36, 44, 60, 68, 76, 52] : Vector (BitVec 7) 8)[j]

/-- Ring mask byte `j + 1`: bits `8j .. 8j+7` of the 64-bit ring mask, the bytes being numbered 1..8
from the least significant (44_field_maps.md R184). -/
def ringByte (mask : BitVec 64) (j : Fin 8) : BitVec 8 := mask.extractLsb' (8 * j.val) 8

/-- The 64-bit ring mask of a plain RingSecret: bit `i` is bit `i mod 8` of mask byte `i div 8 + 1`,
the stream bit at that byte's offset plus `i mod 8` (44_field_maps.md R184; 00_scope.md R11). -/
def ringMask (m : Symbols) : BitVec 64 :=
  BitVec.ofFnLE fun i => sbit m ((ringByteOffset (Fin.ofNat 8 (i.val / 8))).toNat + i.val % 8)

/-- The RingSecret layout, stream bits 0..83: the ring mask's bytes 1..8, in the order of their
numbers (44_field_maps.md R184). -/
def ringFields : List FieldEntry :=
  commonFields ++
  ["mask byte 1", "mask byte 2", "mask byte 3", "mask byte 4", "mask byte 5", "mask byte 6",
   "mask byte 7", "mask byte 8"].zipWith (fun n j => ⟨n, ringByteOffset j, 8⟩) (List.finRange 8)

/-- The MemorySecret layout, stream bits 0..23. The field of the memory index has 4 bits; the spec
gives it the values 0..9 (44_field_maps.md R185; log entry 18). -/
def memoryFields : List FieldEntry := commonFields ++ [⟨"memory index", 20, 4⟩]

/-- The layout of a kind without its last symbol, which holds the checksum (44_field_maps.md R183
to R185). -/
def fieldsOf : SecretKind → List FieldEntry
  | .game => gameFields
  | .ring => ringFields
  | .memory => memoryFields

/-- Stream bit `p` lies in a field. -/
def FieldEntry.covers (f : FieldEntry) (p : Nat) : Bool :=
  decide (f.off.toNat ≤ p) && decide (p < f.off.toNat + f.wid.toNat)

/-- The MemorySecret mask of a target game and return flag: (Ages, return) is 3, the others are a
parameter of the host (44_field_maps.md R186, decision D38; log entry 14). -/
def memoryMask (g : TargetGame) (isReturn : Bool) : BitVec 2 :=
  match g, isReturn with
  | .ages, true => 3
  | g, r => Config.memoryMaskOpen g r

/-- The key field's value of a MemorySecret: `((index AND 1) << 2) + mask`. Whether the original adds
a third term is not in the source (44_field_maps.md R186; log entry 14). -/
def memoryKeyField (index : BitVec 4) (mask : BitVec 2) : BitVec 3 :=
  ((index &&& 1).setWidth 3 <<< 2) + mask.setWidth 3

/-- The 2-bit reversal of a mask, as INS 24, 2 takes it (44_field_maps.md R189). -/
def reverseMask (m : BitVec 2) : BitVec 2 := m.extractLsb' 0 1 ++ m.extractLsb' 1 1

end Sys2Proof.Machine
end

