-- ==== Sys2Proof/Safety.lean ====
section
/-! DEFINITION. What the statements speak of: legal register values, servable events, the registers
of the spec apart from the model's own fields, and the host's accesses. -/

namespace Sys2Proof.Machine

/-- Every register holds a value the spec allows it: `LEN` in 1..20 (10_state.md R22), `TLEN` in
0..32 (R28), `ERR` in 0..7 (60_exceptions.md R211). The other registers allow every value of their
width. -/
def State.Legal (s : State) : Prop :=
  (1 ≤ s.len.toNat ∧ s.len.toNat ≤ 20) ∧ s.tlen.toNat ≤ 32 ∧ s.err.toNat ≤ 7

/-- The registers of the spec alone: the model's own two fields blanked (log entries 1 and 3). -/
def State.registers (s : State) : State := (s.setInputs []).setResp .idle

/-- An event the SCU serves: a reset, or an aligned 32-bit access of the window (20_memory.md R51). -/
def HostEvent.Servable : HostEvent → Prop
  | .reset => True
  | .access a => a.offset < 4096 ∧ a.size = 4 ∧ a.offset % 4 = 0

/-- The next event is a 32-bit write of `v` at `offset`, and `rest` follows it. -/
def NextIsWrite (s : State) (offset : Nat) (v : Word) (rest : List HostEvent) : Prop :=
  s.inputs = .access { offset := offset, size := 4, kind := .write v } :: rest

/-- The next event is a 32-bit read at `offset`, and `rest` follows it. -/
def NextIsRead (s : State) (offset : Nat) (rest : List HostEvent) : Prop :=
  s.inputs = .access { offset := offset, size := 4, kind := .read } :: rest

/-- `s` once the host port has taken a write off the events before `rest`. -/
def State.acceptedWrite (s : State) (rest : List HostEvent) : State :=
  (s.setInputs rest).setResp .done

end Sys2Proof.Machine
end

