-- ==== Sys2Proof/Certificates/Slice0/Obligations.lean ====
section
/-! DEFINITION. The statements for the provers. Each docstring names the rule of spec/ it formalises,
or the log entry of the model's choice it rests on. -/

open Sys2Proof Sys2Proof.Machine

/-! ### Reset, invariants, runs -/

/-- 10_state.md R31: the reset value of every register. -/
def Obligations.ResetGivesTheSpecValues : Prop :=
  (∀ i : Fin 20, State.reset.sym[i] = 0) ∧ State.reset.len.toNat = 20 ∧ State.reset.region = 0 ∧
  State.reset.val = 0 ∧ State.reset.sum = 0 ∧ State.reset.err = 0 ∧
  (∀ i : Fin 32, State.reset.txt[i] = 0) ∧ State.reset.tlen = 0

/-- The reset values lie in the ranges of 10_state.md R22, R28 and 60_exceptions.md R211. -/
def Obligations.ResetIsLegal : Prop := State.reset.Legal

/-- The ranges of 10_state.md R22 (LEN in 1..20), R28 (TLEN in 0..32) and 60_exceptions.md R211 (ERR
in 0..7) are an invariant of every step, from every state that meets them. -/
def Obligations.StepKeepsLegalRegisters : Prop :=
  ∀ s t : State, s.Legal → step s = .next t → t.Legal

/-- From every legal state, whatever aligned word accesses and resets the outside world makes, the
SCU serves them one by one and never stops (10_state.md R20, 20_memory.md R52). With no event left
it waits (log entry 2). -/
def Obligations.RunsOfServableEventsNeverStop : Prop :=
  ∀ (k : Nat) (s : State), s.Legal → (∀ e ∈ s.inputs, e.Servable) →
    ∃ t : State, Sys2Proof.core.run k s = .next t ∧ t.Legal ∧ t.inputs = s.inputs.drop k

/-! ### Encoding and decoding -/

/-- Decode and encode agree on every well-formed command (30_encoding.md R70 to R78). -/
def Obligations.DecodeUndoesEncode : Prop :=
  ∀ i : Instr, i.wellFormed = true → decode (encode i) = .ok i

/-- A word that decodes is the encoding of a well-formed command, so each word has one meaning and
each command one word (30_encoding.md R70, R75). -/
def Obligations.DecodedWordIsItsEncoding : Prop :=
  ∀ (c : Word) (i : Instr), decode c = .ok i → i.wellFormed = true ∧ encode i = c

/-- The number of every command's word, from the opcode map and the field places (30_encoding.md
R70, R71, R75). -/
def Obligations.EncodeIsTheFieldSum : Prop :=
  ((encode .nop).toNat = 0x00 ∧ (encode .clrerr).toNat = 0x01 ∧ (encode .clrsym).toNat = 0x02 ∧
    (encode .xciph).toNat = 0x08 ∧ (encode .csum).toNat = 0x0C ∧ (encode .cstore).toNat = 0x0D ∧
    (encode .lutf).toNat = 0x10 ∧ (encode .lutr).toNat = 0x11 ∧ (encode .fmt).toNat = 0x12 ∧
    (encode .parse).toNat = 0x13) ∧
  (∀ off wid, (encode (.ext off wid)).toNat = 0x04 + 64 * off.toNat + 8192 * wid.toNat) ∧
  (∀ off wid, (encode (.ins off wid)).toNat = 0x05 + 64 * off.toNat + 8192 * wid.toNat) ∧
  (∀ k, (encode (.cver k)).toNat = 0x0E + 524288 * k.toNat) ∧
  (∀ k, (encode (.vkind k)).toNat = 0x0F + 524288 * k.toNat)

/-- The encoding examples of 30_encoding.md R87, the illegal words among them. -/
def Obligations.DecodeSpecExampleWords : Prop :=
  decode 0x0001E144 = .ok (.ext 5 15) ∧ decode 0x0001E145 = .ok (.ins 5 15) ∧
  decode 0x00006004 = .ok (.ext 0 3) ∧ decode 0x000040C4 = .ok (.ext 3 2) ∧
  decode 0x000040C5 = .ok (.ins 3 2) ∧ decode 0x00008504 = .ok (.ext 20 4) ∧
  decode 0x00010584 = .ok (.ext 22 8) ∧ decode 0x00040004 = .ok (.ext 0 32) ∧
  decode 0x0020000E = .ok (.cver 4) ∧ decode 0x0018000E = .ok (.cver 3) ∧
  decode 0x0000000F = .ok (.vkind 0) ∧ decode 0x0010000F = .ok (.vkind 2) ∧
  decode 0x0018000F = .ok (.vkind 3) ∧
  decode 0x0000000E = .error .illegalFields ∧ decode 0x0028000E = .error .illegalFields ∧
  decode 0x0020000F = .error .illegalFields ∧ decode 0x00000003 = .error .unassignedOpcode

/-- The words that are commands, field by field, with the fields taken from the word's number
(30_encoding.md R70 to R73, R75 to R77). -/
def Obligations.LegalWordsAreExactlyTheTable : Prop :=
  ∀ c : Word, (∃ i, decode c = .ok i) ↔
    c.toNat / 4194304 = 0 ∧
    ((c.toNat % 64 ∈ [0x00, 0x01, 0x02, 0x08, 0x0C, 0x0D, 0x10, 0x11, 0x12, 0x13] ∧
        c.toNat / 64 % 128 = 0 ∧ c.toNat / 8192 % 64 = 0 ∧ c.toNat / 524288 % 8 = 0) ∨
     (c.toNat % 64 ∈ [0x04, 0x05] ∧ c.toNat / 8192 % 64 ≤ 32 ∧ c.toNat / 524288 % 8 = 0) ∨
     (c.toNat % 64 = 0x0E ∧ c.toNat / 64 % 128 = 0 ∧ c.toNat / 8192 % 64 = 0 ∧
        1 ≤ c.toNat / 524288 % 8 ∧ c.toNat / 524288 % 8 ≤ 4) ∨
     (c.toNat % 64 = 0x0F ∧ c.toNat / 64 % 128 = 0 ∧ c.toNat / 8192 % 64 = 0 ∧
        c.toNat / 524288 % 8 ≤ 3))

/-- Where the host's next access writes a command's word to CMD, the step is the command's meaning
on the state from which that access is taken, the port answering `done` (20_memory.md R52, R56,
R58; the port's fields are log entries 1 and 3). -/
def Obligations.StepRunsTheDecodedCommand : Prop :=
  ∀ (s : State) (c : Word) (rest : List HostEvent) (i : Instr), NextIsWrite s 0x000 c rest →
    decode c = .ok i → step s = exec i (s.acceptedWrite rest)

/-- 30_encoding.md R77 (and R76 for the opcode): an illegal word raises ILLEGAL_CMD, code 1, and has
no other effect; an earlier error stays. -/
def Obligations.IllegalWordsRaiseIllegalCmd : Prop :=
  ∀ (s : State) (c : Word) (rest : List HostEvent), NextIsWrite s 0x000 c rest →
    (c.toNat % 64 ∈ [0x03, 0x06, 0x07, 0x09, 0x0A, 0x0B] ∨ 0x14 ≤ c.toNat % 64 ∨
     c.toNat / 4194304 ≠ 0 ∨
     (c.toNat % 64 ∈ [0x00, 0x01, 0x02, 0x08, 0x0C, 0x0D, 0x10, 0x11, 0x12, 0x13] ∧
        (c.toNat / 64 % 128 ≠ 0 ∨ c.toNat / 8192 % 64 ≠ 0 ∨ c.toNat / 524288 % 8 ≠ 0)) ∨
     (c.toNat % 64 ∈ [0x04, 0x05] ∧ (c.toNat / 524288 % 8 ≠ 0 ∨ 32 < c.toNat / 8192 % 64)) ∨
     (c.toNat % 64 ∈ [0x0E, 0x0F] ∧ (c.toNat / 64 % 128 ≠ 0 ∨ c.toNat / 8192 % 64 ≠ 0)) ∨
     (c.toNat % 64 = 0x0E ∧ (c.toNat / 524288 % 8 = 0 ∨ 4 < c.toNat / 524288 % 8)) ∨
     (c.toNat % 64 = 0x0F ∧ 3 < c.toNat / 524288 % 8)) →
    step s = .next (if s.err = 0 then (s.acceptedWrite rest).setErr 1 else s.acceptedWrite rest)

/-! ### The error latch and the control commands -/

/-- 45_control.md R200: NOP, the word 0, changes nothing whatever ERR holds; a NOP with a nonzero
other field is no NOP and raises ILLEGAL_CMD. -/
def Obligations.NopDoesNothing : Prop :=
  decode 0x00000000 = .ok .nop ∧ (∀ s : State, exec .nop s = .next s) ∧
  (∀ (s : State) (c : Word) (rest : List HostEvent), NextIsWrite s 0x000 c rest →
    c.toNat % 64 = 0 → c ≠ 0 →
    step s = .next (if s.err = 0 then (s.acceptedWrite rest).setErr 1 else s.acceptedWrite rest))

/-- 45_control.md R201: CLRERR, the word 1, sets ERR to 0 and changes nothing else, whatever ERR
holds; a malformed CLRERR raises ILLEGAL_CMD and leaves a nonzero ERR; under the latch no other
command has an effect. -/
def Obligations.ClrerrClearsTheLatch : Prop :=
  decode 0x00000001 = .ok .clrerr ∧ (∀ s : State, exec .clrerr s = .next (s.setErr 0)) ∧
  (∀ (s : State) (c : Word) (rest : List HostEvent), NextIsWrite s 0x000 c rest →
    c.toNat % 64 = 1 → c ≠ 1 →
    step s = .next (if s.err = 0 then (s.acceptedWrite rest).setErr 1 else s.acceptedWrite rest)) ∧
  (∀ (i : Instr) (s : State), s.err ≠ 0 → i ≠ .clrerr → exec i s = .next s)

/-- 10_state.md R32: under a nonzero ERR every command but NOP and CLRERR changes no state. -/
def Obligations.LatchedCommandsAreIgnored : Prop :=
  ∀ (i : Instr) (s : State), s.err ≠ 0 → i ≠ .nop → i ≠ .clrerr → exec i s = .next s

/-- 10_state.md R26, 60_exceptions.md R213: a nonzero ERR keeps its value through every step but a
reset and a write of CLRERR's word to CMD. -/
def Obligations.LatchHoldsUntilClrerrOrReset : Prop :=
  ∀ s t : State, s.err ≠ 0 → step s = .next t → (∀ rest, s.inputs ≠ .reset :: rest) →
    (∀ rest, ¬ NextIsWrite s 0x000 0x00000001 rest) → t.err = s.err

/-- 60_exceptions.md R212: a step that leaves a new nonzero ERR had ERR = 0 before it, leaves one of
the codes 1..7, and changes no other register. -/
def Obligations.ErrorsChangeOnlyTheLatch : Prop :=
  ∀ s t : State, step s = .next t → t.err ≠ s.err → t.err ≠ 0 →
    s.err = 0 ∧ 1 ≤ t.err.toNat ∧ t.err.toNat ≤ 7 ∧ t.registers = (s.setErr t.err).registers

/-! ### Bit fields -/

/-- 40_bitfield.md R102: EXT and INS past the active length raise RANGE, code 2, and write nothing
else; VKIND never raises it. The sum is one of numbers, with no wrap. -/
def Obligations.RangeChecksStreamAccess : Prop :=
  (∀ (off : BitVec 7) (wid : BitVec 6) (s : State), s.err = 0 → wid.toNat ≤ 32 →
    6 * s.len.toNat < off.toNat + wid.toNat →
    exec (.ext off wid) s = .next (s.setErr 2) ∧ exec (.ins off wid) s = .next (s.setErr 2)) ∧
  (∀ (off : BitVec 7) (wid : BitVec 6), wid.toNat ≤ 32 → off.toNat + wid.toNat ≤ 159) ∧
  (∀ (k : BitVec 3) (s t : State), s.err = 0 → exec (.vkind k) s = .next t → t.err ≠ 2)

/-- 40_bitfield.md R100, 00_scope.md R10, R11: EXT within the active secret writes VAL alone; bit j
of VAL is stream bit off+j, that is bit 5-((off+j) mod 6) of symbol (off+j) div 6, and 0 from bit wid
on. -/
def Obligations.ExtReadsTheFieldBits : Prop :=
  ∀ (off : BitVec 7) (wid : BitVec 6) (s : State), s.err = 0 → wid.toNat ≤ 32 →
    off.toNat + wid.toNat ≤ 6 * s.len.toNat →
    ∃ t, exec (.ext off wid) s = .next t ∧ t = s.setVal t.val ∧
      ∀ j, j < 32 → t.val.getLsbD j =
        (decide (j < wid.toNat) &&
          (s.sym.toList.getD ((off.toNat + j) / 6) 0).getLsbD (5 - (off.toNat + j) % 6))

/-- 40_bitfield.md R101, 00_scope.md R10: INS within the active secret writes SYM alone; stream bit
p takes bit p-off of VAL where off <= p < off+wid, and every other stream bit keeps its value. -/
def Obligations.InsWritesExactlyTheField : Prop :=
  ∀ (off : BitVec 7) (wid : BitVec 6) (s : State), s.Legal → s.err = 0 → wid.toNat ≤ 32 →
    off.toNat + wid.toNat ≤ 6 * s.len.toNat →
    ∃ t, exec (.ins off wid) s = .next t ∧ t = s.setSyms t.sym ∧
      ∀ (i : Fin 20) (j : Nat), j < 6 → t.sym[i].getLsbD j =
        if off.toNat ≤ 6 * i.val + (5 - j) ∧ 6 * i.val + (5 - j) < off.toNat + wid.toNat
        then s.val.getLsbD (6 * i.val + (5 - j) - off.toNat) else s.sym[i].getLsbD j

/-- 40_bitfield.md R103 (a): INS then EXT of one field gives VAL mod 2^wid. -/
def Obligations.InsThenExtReadsBack : Prop :=
  ∀ (off : BitVec 7) (wid : BitVec 6) (s : State), s.Legal → s.err = 0 → wid.toNat ≤ 32 →
    off.toNat + wid.toNat ≤ 6 * s.len.toNat →
    ∃ t u, exec (.ins off wid) s = .next t ∧ exec (.ext off wid) t = .next u ∧
      u.val.toNat = s.val.toNat % 2 ^ wid.toNat ∧ u = t.setVal u.val

/-- 40_bitfield.md R103 (b): EXT then INS of one field leaves SYM unchanged. -/
def Obligations.ExtThenInsRestores : Prop :=
  ∀ (off : BitVec 7) (wid : BitVec 6) (s : State), s.Legal → s.err = 0 → wid.toNat ≤ 32 →
    off.toNat + wid.toNat ≤ 6 * s.len.toNat →
    ∃ t, exec (.ext off wid) s = .next t ∧ exec (.ins off wid) t = .next t ∧ t.sym = s.sym

/-- 40_bitfield.md R103 (c): inserts of two disjoint fields, each with its own value in VAL, give
the same symbols in either order. -/
def Obligations.DisjointInsertsCommute : Prop :=
  ∀ (o1 o2 : BitVec 7) (w1 w2 : BitVec 6) (v1 v2 : BitVec 32) (s : State), s.Legal → s.err = 0 →
    w1.toNat ≤ 32 → w2.toNat ≤ 32 →
    o1.toNat + w1.toNat ≤ 6 * s.len.toNat → o2.toNat + w2.toNat ≤ 6 * s.len.toNat →
    (o1.toNat + w1.toNat ≤ o2.toNat ∨ o2.toNat + w2.toNat ≤ o1.toNat) →
    ∃ a b c d, exec (.ins o1 w1) (s.setVal v1) = .next a ∧ exec (.ins o2 w2) (a.setVal v2) = .next b ∧
      exec (.ins o2 w2) (s.setVal v2) = .next c ∧ exec (.ins o1 w1) (c.setVal v1) = .next d ∧
      b.sym = d.sym

/-- 40_bitfield.md R103 (d): a field of at most 32 bits is its first part and, above it, the rest. -/
def Obligations.ExtSplitsAtAnyBit : Prop :=
  ∀ (o o2 : BitVec 7) (w w1 w2 : BitVec 6) (s : State), s.err = 0 → w.toNat ≤ 32 →
    w.toNat = w1.toNat + w2.toNat → o2.toNat = o.toNat + w1.toNat →
    o.toNat + w.toNat ≤ 6 * s.len.toNat →
    ∃ a b c, exec (.ext o w) s = .next a ∧ exec (.ext o w1) s = .next b ∧
      exec (.ext o2 w2) s = .next c ∧ a.val.toNat = b.val.toNat + 2 ^ w1.toNat * c.val.toNat

/-- 40_bitfield.md R104: CLRSYM writes 0 to all 20 symbols, whatever LEN is, and nothing else. -/
def Obligations.ClrsymClearsEverySymbol : Prop :=
  ∀ s : State, s.err = 0 → ∃ t, exec .clrsym s = .next t ∧ t = s.setSyms t.sym ∧
    ∀ i : Fin 20, t.sym[i] = 0

/-- 44_field_maps.md R180: the key field (0,3) is the 3-bit reversal of the engine key SYM[0] >> 3. -/
def Obligations.KeyFieldReversesTheEngineKey : Prop :=
  ∀ s : State, s.Legal → s.err = 0 → ∃ t, exec (.ext 0 3) s = .next t ∧
    t.val.toNat = s.sym[0].toNat / 8 / 4 + 2 * (s.sym[0].toNat / 8 / 2 % 2) +
      4 * (s.sym[0].toNat / 8 % 2)

/-! ### Cipher -/

/-- 41_cipher.md R120, R123: XCIPH writes SYM alone. With key = SYM[0] >> 3 it XORs symbol i of the
active secret with entry 4*key+i of the region's table; symbol 0 keeps the key in its top 3 bits; the
symbols from LEN on are unchanged. -/
def Obligations.XciphEnciphersTheActiveSymbols : Prop :=
  ∀ s : State, s.Legal → s.err = 0 → ∃ t, exec .xciph s = .next t ∧ t = s.setSyms t.sym ∧
    ∀ i : Fin 20, t.sym[i] =
      if i.val = 0 then
        BitVec.ofNat 6 (8 * (s.sym[0].toNat / 8) +
          (s.sym[0] ^^^ (if s.region = 0 then Config.cipherUS else Config.cipherJP)
            (Fin.ofNat 48 (4 * (s.sym[0].toNat / 8)))).toNat % 8)
      else if i.val < s.len.toNat then
        s.sym[i] ^^^ (if s.region = 0 then Config.cipherUS else Config.cipherJP)
          (Fin.ofNat 48 (4 * (s.sym[0].toNat / 8) + i.val))
      else s.sym[i]

/-- 41_cipher.md R122: two XCIPH in a row, REGION and LEN unchanged, restore the whole state, for
every value of the open cipher tables; the first leaves the key, the top 3 bits of symbol 0. -/
def Obligations.XciphIsAnInvolution : Prop :=
  ∀ s : State, s.err = 0 → ∃ t, exec .xciph s = .next t ∧ exec .xciph t = .next s ∧
    t.sym[0].toNat / 8 = s.sym[0].toNat / 8

/-- 41_cipher.md R120, R121: for key k and length n the cipher reads entries 4k .. 4k+n-1 alone, and
of entry 4k the low 3 bits alone, as symbol 0 gets its top bits back: two tables that agree there
give the same symbols. -/
def Obligations.XciphReadsOnlyItsWindow : Prop :=
  ∀ (t u : CipherTable) (n : Nat) (m : Symbols), n ≤ 20 →
    (∀ j : Fin 48, 4 * (m[0].toNat / 8) < j.val → j.val < 4 * (m[0].toNat / 8) + n → t j = u j) →
    (∀ j : Fin 48, j.val = 4 * (m[0].toNat / 8) → (t j).toNat % 8 = (u j).toNat % 8) →
    xcipher t n m = xcipher u n m

/-! ### Checksum and kind -/

/-- 42_checksum.md R130: CSUM writes SUM alone, the sum of SYM[0..LEN-2] mod 256. -/
def Obligations.CsumSumsAllButTheLast : Prop :=
  ∀ s : State, s.err = 0 → ∃ t, exec .csum s = .next t ∧ t = s.setSum t.sum ∧
    t.sum.toNat = ((s.sym.toList.take (s.len.toNat - 1)).map BitVec.toNat).sum % 256

/-- 42_checksum.md R131: CSTORE writes bits 3:0 of the last symbol from SUM, and nothing else. -/
def Obligations.CstoreStoresTheNibble : Prop :=
  ∀ s : State, s.Legal → s.err = 0 → ∃ t, exec .cstore s = .next t ∧ t = s.setSyms t.sym ∧
    ∀ i : Fin 20, t.sym[i].toNat =
      if i.val + 1 = s.len.toNat then 16 * (s.sym[i].toNat / 16) + s.sum.toNat % 16
      else s.sym[i].toNat

/-- 42_checksum.md R134: where the last symbol's low nibble is 0, CSUM then CSTORE stores the low
nibble of the sum of ALL active symbols and keeps bits 5:4 of the last one. -/
def Obligations.StoredNibbleIsTheSumOfAllSymbols : Prop :=
  ∀ s : State, s.Legal → s.err = 0 →
    (s.sym.toList.getD (s.len.toNat - 1) 0).toNat % 16 = 0 →
    ∃ t u, exec .csum s = .next t ∧ exec .cstore t = .next u ∧
      (u.sym.toList.getD (s.len.toNat - 1) 0).toNat % 16 =
        ((s.sym.toList.take s.len.toNat).map BitVec.toNat).sum % 16 ∧
      (u.sym.toList.getD (s.len.toNat - 1) 0).toNat / 16 =
        (s.sym.toList.getD (s.len.toNat - 1) 0).toNat / 16

/-- 42_checksum.md R132: CVER w changes nothing where SUM and the last symbol agree mod 2^w, and
raises CHECKSUM_MISMATCH, code 6, where they do not. -/
def Obligations.CverComparesTheLowBits : Prop :=
  ∀ (k : BitVec 3) (s : State), s.Legal → s.err = 0 → 1 ≤ k.toNat → k.toNat ≤ 4 →
    (s.sum.toNat % 2 ^ k.toNat = (s.sym.toList.getD (s.len.toNat - 1) 0).toNat % 2 ^ k.toNat →
      exec (.cver k) s = .next s) ∧
    (s.sum.toNat % 2 ^ k.toNat ≠ (s.sym.toList.getD (s.len.toNat - 1) 0).toNat % 2 ^ k.toNat →
      exec (.cver k) s = .next (s.setErr 6))

/-- 42_checksum.md R133: VKIND k changes nothing where the field (3,2), SYM[0][2] + 2*SYM[0][1], is
k, and raises WRONG_KIND, code 5, where it is not. -/
def Obligations.VkindChecksTheDiscriminator : Prop :=
  ∀ (k : BitVec 3) (s : State), s.err = 0 → k.toNat ≤ 3 →
    (s.sym[0].toNat / 4 % 2 + 2 * (s.sym[0].toNat / 2 % 2) = k.toNat →
      exec (.vkind k) s = .next s) ∧
    (s.sym[0].toNat / 4 % 2 + 2 * (s.sym[0].toNat / 2 % 2) ≠ k.toNat →
      exec (.vkind k) s = .next (s.setErr 5))

/-- 42_checksum.md R135: where a secret passes CSUM and CVER w, the same secret with the low w bits
of its last symbol changed fails them, for the sum leaves the last symbol out. -/
def Obligations.LastSymbolChangeIsDetected : Prop :=
  ∀ (k : BitVec 3) (x : Symbol) (s t : State) (h : s.len.toNat - 1 < 20), s.Legal → s.err = 0 →
    1 ≤ k.toNat → k.toNat ≤ 4 →
    exec .csum s = .next t → exec (.cver k) t = .next t →
    x.toNat % 2 ^ k.toNat ≠ s.sym[s.len.toNat - 1].toNat % 2 ^ k.toNat →
    ∃ u, exec .csum (s.setSyms (s.sym.set (s.len.toNat - 1) x)) = .next u ∧
      exec (.cver k) u = .next (u.setErr 6)

/-! ### The look-up table -/

/-- 43_lut.md R160: LUTF on a symbol value gives its character in the region's alphabet; on a value
above 63 it raises INVALID_SYMBOL, code 3, and leaves VAL. -/
def Obligations.LutfGivesTheCharacter : Prop :=
  ∀ s : State, s.err = 0 →
    (s.val.toNat ≤ 63 → exec .lutf s = .next (s.setVal (BitVec.ofNat 32
      ((if s.region = 0 then alphaUS else alphaJP) (Fin.ofNat 64 s.val.toNat)).toNat))) ∧
    (63 < s.val.toNat → exec .lutf s = .next (s.setErr 3))

/-- 43_lut.md R161, R150: LUTR on the character of symbol v gives v; on a number that is no
character of the region's alphabet it raises INVALID_SYMBOL, code 3, and leaves VAL. -/
def Obligations.LutrGivesTheSymbol : Prop :=
  ∀ s : State, s.err = 0 →
    (∀ v : Fin 64, ((if s.region = 0 then alphaUS else alphaJP) v).toNat = s.val.toNat →
      exec .lutr s = .next (s.setVal (BitVec.ofNat 32 v.val))) ∧
    ((∀ v : Fin 64, ((if s.region = 0 then alphaUS else alphaJP) v).toNat ≠ s.val.toNat) →
      exec .lutr s = .next (s.setErr 3))

/-- 43_lut.md R160, R161: on a symbol value, LUTF then LUTR restores the whole state, for every
value of the open alphabets. -/
def Obligations.LutfThenLutrReturns : Prop :=
  ∀ s : State, s.err = 0 → s.val.toNat ≤ 63 →
    ∃ t, exec .lutf s = .next t ∧ exec .lutr t = .next s

/-- 43_lut.md R152: the 28 characters of the US alphabet that the source settles. -/
def Obligations.SourceSettlesTheseUSCharacters : Prop :=
  alphaUS 0 = 0x42 ∧ alphaUS 3 = 0x47 ∧ alphaUS 4 = 0x48 ∧ alphaUS 6 = 0x4C ∧ alphaUS 9 = 0x2665 ∧
  alphaUS 10 = 0x2666 ∧ alphaUS 13 = 0x4E ∧ alphaUS 15 = 0x52 ∧ alphaUS 18 = 0x57 ∧
  alphaUS 21 = 0x25CF ∧ alphaUS 26 = 0x62 ∧ alphaUS 30 = 0x68 ∧ alphaUS 32 = 0x6D ∧
  alphaUS 36 = 0x3A ∧ alphaUS 37 = 0x7E ∧ alphaUS 39 = 0x71 ∧ alphaUS 41 = 0x73 ∧
  alphaUS 44 = 0x79 ∧ alphaUS 45 = 0x3F ∧ alphaUS 47 = 0x26 ∧ alphaUS 48 = 0x28 ∧
  alphaUS 49 = 0x3D ∧ alphaUS 51 = 0x32 ∧ alphaUS 52 = 0x33 ∧ alphaUS 55 = 0x36 ∧
  alphaUS 59 = 0x2191 ∧ alphaUS 61 = 0x2190 ∧ alphaUS 63 = 0x40

/-- 43_lut.md R150, R151: the characters of each alphabet are distinct, and none is U+0020 or
U+0000. The model holds the open alphabets to this (log entries 7 and 8). -/
def Obligations.AlphabetsAreDistinctAndSpaceless : Prop :=
  ∀ (r : Region) (u v : Fin 64), alphabet r u ≠ 0x20 ∧ alphabet r u ≠ 0 ∧
    (alphabet r u = alphabet r v → u = v)

/-- 43_lut.md R163: after FMT, TLEN = LEN + (LEN - 1) div 5: 5, 17 and 23 for LEN = 5, 15 and 20,
and at most 23. -/
def Obligations.FmtLengthFormula : Prop :=
  ∀ s : State, s.Legal → s.err = 0 → ∃ t, exec .fmt s = .next t ∧
    t.tlen.toNat = s.len.toNat + (s.len.toNat - 1) / 5 ∧ t.tlen.toNat ≤ 23 ∧
    (s.len.toNat = 5 → t.tlen.toNat = 5) ∧ (s.len.toNat = 15 → t.tlen.toNat = 17) ∧
    (s.len.toNat = 20 → t.tlen.toNat = 23)

/-- 43_lut.md R162: FMT writes TXT and TLEN alone: symbol i's character at i + i div 5, a space
before every symbol whose index is a positive multiple of 5, and TXT[TLEN..31] unchanged. -/
def Obligations.FmtWritesGroupedText : Prop :=
  ∀ s : State, s.Legal → s.err = 0 → ∃ t, exec .fmt s = .next t ∧
    t = (s.setTxt t.txt).setTlen t.tlen ∧
    t.tlen.toNat = s.len.toNat + (s.len.toNat - 1) / 5 ∧
    (∀ i : Fin 20, i.val < s.len.toNat → t.txt.toList.getD (i.val + i.val / 5) 0 =
      (if s.region = 0 then alphaUS else alphaJP) (Fin.ofNat 64 s.sym[i].toNat)) ∧
    (∀ i : Fin 20, 0 < i.val → i.val < s.len.toNat → i.val % 5 = 0 →
      t.txt.toList.getD (i.val + i.val / 5 - 1) 0 = 0x20) ∧
    (∀ j : Fin 32, t.tlen.toNat ≤ j.val → t.txt[j] = s.txt[j])

/-- 43_lut.md R168 (a), (b): PARSE after FMT changes nothing at all, and FMT after that gives the
same text again, for every value of the open alphabets. -/
def Obligations.FmtAndParseRoundTrip : Prop :=
  ∀ s : State, s.Legal → s.err = 0 →
    ∃ t, exec .fmt s = .next t ∧ exec .parse t = .next t ∧ exec .fmt t = .next t

/-- 43_lut.md R165: where the text without its spaces is the characters of LEN symbols, PARSE writes
those symbols to SYM[0..LEN-1] and nothing else. -/
def Obligations.ParseReadsTheSymbols : Prop :=
  ∀ (s : State) (vs : List (Fin 64)), s.err = 0 →
    vs.map (if s.region = 0 then alphaUS else alphaJP) =
      (s.txt.toList.take s.tlen.toNat).filter (fun c => c ≠ 0x20) →
    vs.length = s.len.toNat →
    ∃ t, exec .parse s = .next t ∧ t = s.setSyms t.sym ∧
      ∀ i : Fin 20, t.sym[i].toNat =
        if h : i.val < vs.length then (vs[i.val]'h).val else s.sym[i].toNat

/-- 43_lut.md R165, R166: a character that is neither a space nor of the alphabet makes PARSE raise
INVALID_SYMBOL, code 3, whatever the count; with valid characters, a count other than LEN makes it
raise MALFORMED_LENGTH, code 4. Nothing else is written. -/
def Obligations.ParseRejectsBadText : Prop :=
  ∀ s : State, s.err = 0 →
    ((∃ c ∈ s.txt.toList.take s.tlen.toNat, c ≠ 0x20 ∧
        ∀ v : Fin 64, (if s.region = 0 then alphaUS else alphaJP) v ≠ c) →
      exec .parse s = .next (s.setErr 3)) ∧
    (∀ vs : List (Fin 64), vs.map (if s.region = 0 then alphaUS else alphaJP) =
        (s.txt.toList.take s.tlen.toNat).filter (fun c => c ≠ 0x20) →
      vs.length ≠ s.len.toNat → exec .parse s = .next (s.setErr 4))

/-- 43_lut.md R165, R150: a tab, a newline or another control character, and white space other than
U+0020, is no character of an alphabet: LUTR of it and PARSE of a text that holds it raise
INVALID_SYMBOL, code 3, and write nothing else. Which characters beside tab and newline this names is
the model's reading of "printable" (log entry 8). -/
def Obligations.OtherWhitespaceIsRejected : Prop :=
  ∀ (s : State) (c : Nat), s.err = 0 →
    (c ≤ 0x1F ∨ (0x7F ≤ c ∧ c ≤ 0x9F) ∨ (0x2000 ≤ c ∧ c ≤ 0x200A) ∨
      c ∈ [0xA0, 0x1680, 0x2028, 0x2029, 0x202F, 0x205F, 0x3000]) →
    (s.val.toNat = c → exec .lutr s = .next (s.setErr 3)) ∧
    ((∃ d ∈ s.txt.toList.take s.tlen.toNat, d.toNat = c) → exec .parse s = .next (s.setErr 3))

/-! ### Every command -/

/-- 10_state.md R21 to R28: what each command leaves alone. No command writes LEN or REGION; only
CSUM writes SUM; only EXT, LUTF and LUTR write VAL; only FMT writes TXT and TLEN; only CLRSYM, INS,
XCIPH, CSTORE and PARSE write SYM. No command touches the model's own fields. -/
def Obligations.CommandsWriteOnlyTheirRegisters : Prop :=
  ∀ (i : Instr) (s t : State), exec i s = .next t →
    t.len = s.len ∧ t.region = s.region ∧ t.inputs = s.inputs ∧ t.resp = s.resp ∧
    (t.sum ≠ s.sum → i = .csum) ∧
    (t.val ≠ s.val → (∃ off wid, i = .ext off wid) ∨ i = .lutf ∨ i = .lutr) ∧
    (t.txt ≠ s.txt ∨ t.tlen ≠ s.tlen → i = .fmt) ∧
    (t.sym ≠ s.sym →
      i = .clrsym ∨ (∃ off wid, i = .ins off wid) ∨ i = .xciph ∨ i = .cstore ∨ i = .parse)

/-- 10_state.md R21: an entry of SYM at index LEN or above keeps its value through every command but
CLRSYM. -/
def Obligations.SymbolsPastLenAreKept : Prop :=
  ∀ (i : Instr) (s t : State) (j : Fin 20), s.Legal → exec i s = .next t → i ≠ .clrsym →
    s.len.toNat ≤ j.val → t.sym[j] = s.sym[j]

/-- 10_state.md R23, 40_bitfield.md R105: the bit-field, checksum and control commands do not read
REGION: with another REGION they do the same. -/
def Obligations.RegionIsReadByTableCommandsOnly : Prop :=
  ∀ (i : Instr) (r : BitVec 1) (s t : State),
    i ≠ .xciph → i ≠ .lutf → i ≠ .lutr → i ≠ .fmt → i ≠ .parse →
    exec i s = .next t → exec i (s.setRegion r) = .next (t.setRegion r)

/-! ### The register window -/

/-- 10_state.md R22, R28, R33: a write of LEN or TLEN stores a legal value and raises BAD_PARAM,
code 7, on another, whatever ERR holds; an earlier error stays. -/
def Obligations.LengthWritesAreChecked : Prop :=
  ∀ (s : State) (v : Word) (rest : List HostEvent),
    (NextIsWrite s 0x008 v rest → step s = .next
      (if 1 ≤ v.toNat ∧ v.toNat ≤ 20 then (s.acceptedWrite rest).setLen (BitVec.ofNat 5 v.toNat)
       else if s.err = 0 then (s.acceptedWrite rest).setErr 7 else s.acceptedWrite rest)) ∧
    (NextIsWrite s 0x018 v rest → step s = .next
      (if v.toNat ≤ 32 then (s.acceptedWrite rest).setTlen (BitVec.ofNat 6 v.toNat)
       else if s.err = 0 then (s.acceptedWrite rest).setErr 7 else s.acceptedWrite rest))

/-- 20_memory.md R55: a write of SYM[i], at 0x100 + 4i, stores a value up to 63 and raises
INVALID_SYMBOL, code 3, on another, SYM[i] unchanged; an earlier error stays. -/
def Obligations.SymWriteIsChecked : Prop :=
  ∀ (s : State) (i : Fin 20) (v : Word) (rest : List HostEvent),
    NextIsWrite s (0x100 + 4 * i.val) v rest → step s = .next
      (if v.toNat ≤ 63
       then (s.acceptedWrite rest).setSyms (s.sym.set i.val (BitVec.ofNat 6 v.toNat))
       else if s.err = 0 then (s.acceptedWrite rest).setErr 3 else s.acceptedWrite rest)

/-- 10_state.md R23, R24, R27: a write of REGION keeps v[0], of VAL all of v, of TXT[i] v[20:0],
whatever ERR holds; none raises an error. -/
def Obligations.UncheckedWritesStore : Prop :=
  ∀ (s : State) (v : Word) (rest : List HostEvent),
    (NextIsWrite s 0x00C v rest →
      step s = .next ((s.acceptedWrite rest).setRegion (BitVec.ofNat 1 (v.toNat % 2)))) ∧
    (NextIsWrite s 0x010 v rest → step s = .next ((s.acceptedWrite rest).setVal v)) ∧
    (∀ i : Fin 32, NextIsWrite s (0x200 + 4 * i.val) v rest → step s = .next
      ((s.acceptedWrite rest).setTxt (s.txt.set i.val (BitVec.ofNat 21 (v.toNat % 2 ^ 21)))))

/-- 10_state.md R36: a write to STATUS, SUM or a reserved word is ignored, with no error; a read of
CMD or of a reserved word gives 0. -/
def Obligations.ReadOnlyAndReservedWords : Prop :=
  ∀ (s : State) (o : Nat) (v : Word) (rest : List HostEvent), o % 4 = 0 →
    (NextIsWrite s o v rest →
      (o = 0x004 ∨ o = 0x014 ∨ (0x01C ≤ o ∧ o ≤ 0x0FC) ∨ (0x150 ≤ o ∧ o ≤ 0x1FC) ∨
        (0x280 ≤ o ∧ o ≤ 0xFFC)) →
      step s = .next (s.acceptedWrite rest)) ∧
    (NextIsRead s o rest →
      (o = 0x000 ∨ (0x01C ≤ o ∧ o ≤ 0x0FC) ∨ (0x150 ≤ o ∧ o ≤ 0x1FC) ∨ (0x280 ≤ o ∧ o ≤ 0xFFC)) →
      step s = .next ((s.setInputs rest).setResp (.data 0)))

/-- 10_state.md R36: what a read of each register answers, the bits above its width being 0. -/
def Obligations.ReadsAnswerTheRegisters : Prop :=
  ∀ (s : State) (rest : List HostEvent),
    (NextIsRead s 0x004 rest →
      step s = .next ((s.setInputs rest).setResp (.data (BitVec.ofNat 32 s.err.toNat)))) ∧
    (NextIsRead s 0x008 rest →
      step s = .next ((s.setInputs rest).setResp (.data (BitVec.ofNat 32 s.len.toNat)))) ∧
    (NextIsRead s 0x00C rest →
      step s = .next ((s.setInputs rest).setResp (.data (BitVec.ofNat 32 s.region.toNat)))) ∧
    (NextIsRead s 0x010 rest → step s = .next ((s.setInputs rest).setResp (.data s.val))) ∧
    (NextIsRead s 0x014 rest →
      step s = .next ((s.setInputs rest).setResp (.data (BitVec.ofNat 32 s.sum.toNat)))) ∧
    (NextIsRead s 0x018 rest →
      step s = .next ((s.setInputs rest).setResp (.data (BitVec.ofNat 32 s.tlen.toNat)))) ∧
    (∀ i : Fin 20, NextIsRead s (0x100 + 4 * i.val) rest →
      step s = .next ((s.setInputs rest).setResp (.data (BitVec.ofNat 32 s.sym[i].toNat)))) ∧
    (∀ i : Fin 32, NextIsRead s (0x200 + 4 * i.val) rest →
      step s = .next ((s.setInputs rest).setResp (.data (BitVec.ofNat 32 s.txt[i].toNat))))

/-- 20_memory.md R56: every aligned read of the window is answered and changes no register. -/
def Obligations.ReadsHaveNoSideEffects : Prop :=
  ∀ (s : State) (o : Nat) (rest : List HostEvent), NextIsRead s o rest → o < 4096 → o % 4 = 0 →
    ∃ t, step s = .next t ∧ t.registers = s.registers ∧ t.inputs = rest

/-- 20_memory.md R51: an access of another width or at an offset that is no multiple of 4 is refused,
with no step; aligned 32-bit accesses are not (`ReadsHaveNoSideEffects`,
`RunsOfServableEventsNeverStop`). -/
def Obligations.BusErrorIsRefused : Prop :=
  ∀ (s : State) (a : Access) (rest : List HostEvent), s.inputs = .access a :: rest →
    a.offset < 4096 → (a.size ≠ 4 ∨ a.offset % 4 ≠ 0) → step s = .refused .busError

/-- The model's choice (log entry 5): an access past the 4 KiB window of 20_memory.md R50 stops the
run with a fault. -/
def Obligations.AccessPastTheWindowFaults : Prop :=
  ∀ (s : State) (a : Access) (rest : List HostEvent), s.inputs = .access a :: rest →
    4096 ≤ a.offset → step s = .fault .outsideWindow

/-- 70_reset_and_hazards.md R240: reset gives every register its reset value, a nonzero ERR
included; what the outside world does next stays (log entry 10). With no event the SCU is idle and
the state stays (log entry 2). -/
def Obligations.ResetAndIdleSteps : Prop :=
  ∀ (s : State) (rest : List HostEvent),
    (s.inputs = .reset :: rest →
      step s = .next (State.reset.setInputs rest)) ∧
    (s.inputs = [] → step s = .next s)

/-- 20_memory.md R52: a step serves exactly the next event, in the order of the events (the model's
form of the host's access order, log entry 1). -/
def Obligations.StepServesOneEvent : Prop :=
  ∀ s t : State, step s = .next t → t.inputs = s.inputs.tail

/-! ### Field maps -/

/-- 44_field_maps.md R183, R184, R185: the fields of a GameSecret cover stream bits 0..113, those of
a RingSecret 0..83 and those of a MemorySecret 0..23, each bit exactly once. -/
def Obligations.FieldMapsCoverTheirBits : Prop :=
  (∀ p : Fin 114, (gameFields.filter fun f => f.covers p.val).length = 1) ∧
  (∀ p : Fin 84, (ringFields.filter fun f => f.covers p.val).length = 1) ∧
  (∀ p : Fin 24, (memoryFields.filter fun f => f.covers p.val).length = 1)

/-- 44_field_maps.md R184: in a RingSecret, EXT of the field of mask byte j+1 gives bits 8j..8j+7 of
the 64-bit ring mask, for each of the eight bytes at its permuted offset. -/
def Obligations.RingMaskIsItsBytes : Prop :=
  ∀ (s : State) (j : Fin 8), s.Legal → s.err = 0 → s.len.toNat = 15 →
    ∃ t, exec (.ext ([20, 28, 36, 44, 60, 68, 76, 52].getD j.val 0) 8) s = .next t ∧
      t = s.setVal t.val ∧ t.val.toNat = (ringMask s.sym).toNat / 2 ^ (8 * j.val) % 256 ∧
      t.val.toNat = (ringByte (ringMask s.sym) j).toNat
end

