-- ==== Sys2Proof/Laws/State.lean ====
section
/-! SUPPORT. One lemma per field per update of State, true by rfl. -/

namespace Sys2Proof.Machine

@[simp] theorem State.setSyms_sym (s : State) (v : Vector (BitVec 6) 20) : (s.setSyms v).sym = v := rfl
@[simp] theorem State.setSyms_len (s : State) (v : Vector (BitVec 6) 20) : (s.setSyms v).len = s.len := rfl
@[simp] theorem State.setSyms_region (s : State) (v : Vector (BitVec 6) 20) : (s.setSyms v).region = s.region := rfl
@[simp] theorem State.setSyms_val (s : State) (v : Vector (BitVec 6) 20) : (s.setSyms v).val = s.val := rfl
@[simp] theorem State.setSyms_sum (s : State) (v : Vector (BitVec 6) 20) : (s.setSyms v).sum = s.sum := rfl
@[simp] theorem State.setSyms_err (s : State) (v : Vector (BitVec 6) 20) : (s.setSyms v).err = s.err := rfl
@[simp] theorem State.setSyms_txt (s : State) (v : Vector (BitVec 6) 20) : (s.setSyms v).txt = s.txt := rfl
@[simp] theorem State.setSyms_tlen (s : State) (v : Vector (BitVec 6) 20) : (s.setSyms v).tlen = s.tlen := rfl
@[simp] theorem State.setSyms_inputs (s : State) (v : Vector (BitVec 6) 20) : (s.setSyms v).inputs = s.inputs := rfl
@[simp] theorem State.setSyms_resp (s : State) (v : Vector (BitVec 6) 20) : (s.setSyms v).resp = s.resp := rfl

@[simp] theorem State.setLen_sym (s : State) (v : BitVec 5) : (s.setLen v).sym = s.sym := rfl
@[simp] theorem State.setLen_len (s : State) (v : BitVec 5) : (s.setLen v).len = v := rfl
@[simp] theorem State.setLen_region (s : State) (v : BitVec 5) : (s.setLen v).region = s.region := rfl
@[simp] theorem State.setLen_val (s : State) (v : BitVec 5) : (s.setLen v).val = s.val := rfl
@[simp] theorem State.setLen_sum (s : State) (v : BitVec 5) : (s.setLen v).sum = s.sum := rfl
@[simp] theorem State.setLen_err (s : State) (v : BitVec 5) : (s.setLen v).err = s.err := rfl
@[simp] theorem State.setLen_txt (s : State) (v : BitVec 5) : (s.setLen v).txt = s.txt := rfl
@[simp] theorem State.setLen_tlen (s : State) (v : BitVec 5) : (s.setLen v).tlen = s.tlen := rfl
@[simp] theorem State.setLen_inputs (s : State) (v : BitVec 5) : (s.setLen v).inputs = s.inputs := rfl
@[simp] theorem State.setLen_resp (s : State) (v : BitVec 5) : (s.setLen v).resp = s.resp := rfl

@[simp] theorem State.setRegion_sym (s : State) (v : BitVec 1) : (s.setRegion v).sym = s.sym := rfl
@[simp] theorem State.setRegion_len (s : State) (v : BitVec 1) : (s.setRegion v).len = s.len := rfl
@[simp] theorem State.setRegion_region (s : State) (v : BitVec 1) : (s.setRegion v).region = v := rfl
@[simp] theorem State.setRegion_val (s : State) (v : BitVec 1) : (s.setRegion v).val = s.val := rfl
@[simp] theorem State.setRegion_sum (s : State) (v : BitVec 1) : (s.setRegion v).sum = s.sum := rfl
@[simp] theorem State.setRegion_err (s : State) (v : BitVec 1) : (s.setRegion v).err = s.err := rfl
@[simp] theorem State.setRegion_txt (s : State) (v : BitVec 1) : (s.setRegion v).txt = s.txt := rfl
@[simp] theorem State.setRegion_tlen (s : State) (v : BitVec 1) : (s.setRegion v).tlen = s.tlen := rfl
@[simp] theorem State.setRegion_inputs (s : State) (v : BitVec 1) : (s.setRegion v).inputs = s.inputs := rfl
@[simp] theorem State.setRegion_resp (s : State) (v : BitVec 1) : (s.setRegion v).resp = s.resp := rfl

@[simp] theorem State.setVal_sym (s : State) (v : BitVec 32) : (s.setVal v).sym = s.sym := rfl
@[simp] theorem State.setVal_len (s : State) (v : BitVec 32) : (s.setVal v).len = s.len := rfl
@[simp] theorem State.setVal_region (s : State) (v : BitVec 32) : (s.setVal v).region = s.region := rfl
@[simp] theorem State.setVal_val (s : State) (v : BitVec 32) : (s.setVal v).val = v := rfl
@[simp] theorem State.setVal_sum (s : State) (v : BitVec 32) : (s.setVal v).sum = s.sum := rfl
@[simp] theorem State.setVal_err (s : State) (v : BitVec 32) : (s.setVal v).err = s.err := rfl
@[simp] theorem State.setVal_txt (s : State) (v : BitVec 32) : (s.setVal v).txt = s.txt := rfl
@[simp] theorem State.setVal_tlen (s : State) (v : BitVec 32) : (s.setVal v).tlen = s.tlen := rfl
@[simp] theorem State.setVal_inputs (s : State) (v : BitVec 32) : (s.setVal v).inputs = s.inputs := rfl
@[simp] theorem State.setVal_resp (s : State) (v : BitVec 32) : (s.setVal v).resp = s.resp := rfl

@[simp] theorem State.setSum_sym (s : State) (v : BitVec 8) : (s.setSum v).sym = s.sym := rfl
@[simp] theorem State.setSum_len (s : State) (v : BitVec 8) : (s.setSum v).len = s.len := rfl
@[simp] theorem State.setSum_region (s : State) (v : BitVec 8) : (s.setSum v).region = s.region := rfl
@[simp] theorem State.setSum_val (s : State) (v : BitVec 8) : (s.setSum v).val = s.val := rfl
@[simp] theorem State.setSum_sum (s : State) (v : BitVec 8) : (s.setSum v).sum = v := rfl
@[simp] theorem State.setSum_err (s : State) (v : BitVec 8) : (s.setSum v).err = s.err := rfl
@[simp] theorem State.setSum_txt (s : State) (v : BitVec 8) : (s.setSum v).txt = s.txt := rfl
@[simp] theorem State.setSum_tlen (s : State) (v : BitVec 8) : (s.setSum v).tlen = s.tlen := rfl
@[simp] theorem State.setSum_inputs (s : State) (v : BitVec 8) : (s.setSum v).inputs = s.inputs := rfl
@[simp] theorem State.setSum_resp (s : State) (v : BitVec 8) : (s.setSum v).resp = s.resp := rfl

@[simp] theorem State.setErr_sym (s : State) (v : BitVec 4) : (s.setErr v).sym = s.sym := rfl
@[simp] theorem State.setErr_len (s : State) (v : BitVec 4) : (s.setErr v).len = s.len := rfl
@[simp] theorem State.setErr_region (s : State) (v : BitVec 4) : (s.setErr v).region = s.region := rfl
@[simp] theorem State.setErr_val (s : State) (v : BitVec 4) : (s.setErr v).val = s.val := rfl
@[simp] theorem State.setErr_sum (s : State) (v : BitVec 4) : (s.setErr v).sum = s.sum := rfl
@[simp] theorem State.setErr_err (s : State) (v : BitVec 4) : (s.setErr v).err = v := rfl
@[simp] theorem State.setErr_txt (s : State) (v : BitVec 4) : (s.setErr v).txt = s.txt := rfl
@[simp] theorem State.setErr_tlen (s : State) (v : BitVec 4) : (s.setErr v).tlen = s.tlen := rfl
@[simp] theorem State.setErr_inputs (s : State) (v : BitVec 4) : (s.setErr v).inputs = s.inputs := rfl
@[simp] theorem State.setErr_resp (s : State) (v : BitVec 4) : (s.setErr v).resp = s.resp := rfl

@[simp] theorem State.setTxt_sym (s : State) (v : Vector (BitVec 21) 32) : (s.setTxt v).sym = s.sym := rfl
@[simp] theorem State.setTxt_len (s : State) (v : Vector (BitVec 21) 32) : (s.setTxt v).len = s.len := rfl
@[simp] theorem State.setTxt_region (s : State) (v : Vector (BitVec 21) 32) : (s.setTxt v).region = s.region := rfl
@[simp] theorem State.setTxt_val (s : State) (v : Vector (BitVec 21) 32) : (s.setTxt v).val = s.val := rfl
@[simp] theorem State.setTxt_sum (s : State) (v : Vector (BitVec 21) 32) : (s.setTxt v).sum = s.sum := rfl
@[simp] theorem State.setTxt_err (s : State) (v : Vector (BitVec 21) 32) : (s.setTxt v).err = s.err := rfl
@[simp] theorem State.setTxt_txt (s : State) (v : Vector (BitVec 21) 32) : (s.setTxt v).txt = v := rfl
@[simp] theorem State.setTxt_tlen (s : State) (v : Vector (BitVec 21) 32) : (s.setTxt v).tlen = s.tlen := rfl
@[simp] theorem State.setTxt_inputs (s : State) (v : Vector (BitVec 21) 32) : (s.setTxt v).inputs = s.inputs := rfl
@[simp] theorem State.setTxt_resp (s : State) (v : Vector (BitVec 21) 32) : (s.setTxt v).resp = s.resp := rfl

@[simp] theorem State.setTlen_sym (s : State) (v : BitVec 6) : (s.setTlen v).sym = s.sym := rfl
@[simp] theorem State.setTlen_len (s : State) (v : BitVec 6) : (s.setTlen v).len = s.len := rfl
@[simp] theorem State.setTlen_region (s : State) (v : BitVec 6) : (s.setTlen v).region = s.region := rfl
@[simp] theorem State.setTlen_val (s : State) (v : BitVec 6) : (s.setTlen v).val = s.val := rfl
@[simp] theorem State.setTlen_sum (s : State) (v : BitVec 6) : (s.setTlen v).sum = s.sum := rfl
@[simp] theorem State.setTlen_err (s : State) (v : BitVec 6) : (s.setTlen v).err = s.err := rfl
@[simp] theorem State.setTlen_txt (s : State) (v : BitVec 6) : (s.setTlen v).txt = s.txt := rfl
@[simp] theorem State.setTlen_tlen (s : State) (v : BitVec 6) : (s.setTlen v).tlen = v := rfl
@[simp] theorem State.setTlen_inputs (s : State) (v : BitVec 6) : (s.setTlen v).inputs = s.inputs := rfl
@[simp] theorem State.setTlen_resp (s : State) (v : BitVec 6) : (s.setTlen v).resp = s.resp := rfl

@[simp] theorem State.setInputs_sym (s : State) (v : List HostEvent) : (s.setInputs v).sym = s.sym := rfl
@[simp] theorem State.setInputs_len (s : State) (v : List HostEvent) : (s.setInputs v).len = s.len := rfl
@[simp] theorem State.setInputs_region (s : State) (v : List HostEvent) : (s.setInputs v).region = s.region := rfl
@[simp] theorem State.setInputs_val (s : State) (v : List HostEvent) : (s.setInputs v).val = s.val := rfl
@[simp] theorem State.setInputs_sum (s : State) (v : List HostEvent) : (s.setInputs v).sum = s.sum := rfl
@[simp] theorem State.setInputs_err (s : State) (v : List HostEvent) : (s.setInputs v).err = s.err := rfl
@[simp] theorem State.setInputs_txt (s : State) (v : List HostEvent) : (s.setInputs v).txt = s.txt := rfl
@[simp] theorem State.setInputs_tlen (s : State) (v : List HostEvent) : (s.setInputs v).tlen = s.tlen := rfl
@[simp] theorem State.setInputs_inputs (s : State) (v : List HostEvent) : (s.setInputs v).inputs = v := rfl
@[simp] theorem State.setInputs_resp (s : State) (v : List HostEvent) : (s.setInputs v).resp = s.resp := rfl

@[simp] theorem State.setResp_sym (s : State) (v : Response) : (s.setResp v).sym = s.sym := rfl
@[simp] theorem State.setResp_len (s : State) (v : Response) : (s.setResp v).len = s.len := rfl
@[simp] theorem State.setResp_region (s : State) (v : Response) : (s.setResp v).region = s.region := rfl
@[simp] theorem State.setResp_val (s : State) (v : Response) : (s.setResp v).val = s.val := rfl
@[simp] theorem State.setResp_sum (s : State) (v : Response) : (s.setResp v).sum = s.sum := rfl
@[simp] theorem State.setResp_err (s : State) (v : Response) : (s.setResp v).err = s.err := rfl
@[simp] theorem State.setResp_txt (s : State) (v : Response) : (s.setResp v).txt = s.txt := rfl
@[simp] theorem State.setResp_tlen (s : State) (v : Response) : (s.setResp v).tlen = s.tlen := rfl
@[simp] theorem State.setResp_inputs (s : State) (v : Response) : (s.setResp v).inputs = s.inputs := rfl
@[simp] theorem State.setResp_resp (s : State) (v : Response) : (s.setResp v).resp = v := rfl

/-- Writing back what `sym` holds changes nothing. -/
@[simp] theorem State.setSyms_self (s : State) : s.setSyms s.sym = s := rfl
@[simp] theorem State.setSyms_setSyms (s : State) (v w : Vector (BitVec 6) 20) : (s.setSyms v).setSyms w = s.setSyms w := rfl
/-- Writing back what `len` holds changes nothing. -/
@[simp] theorem State.setLen_self (s : State) : s.setLen s.len = s := rfl
@[simp] theorem State.setLen_setLen (s : State) (v w : BitVec 5) : (s.setLen v).setLen w = s.setLen w := rfl
/-- Writing back what `region` holds changes nothing. -/
@[simp] theorem State.setRegion_self (s : State) : s.setRegion s.region = s := rfl
@[simp] theorem State.setRegion_setRegion (s : State) (v w : BitVec 1) : (s.setRegion v).setRegion w = s.setRegion w := rfl
/-- Writing back what `val` holds changes nothing. -/
@[simp] theorem State.setVal_self (s : State) : s.setVal s.val = s := rfl
@[simp] theorem State.setVal_setVal (s : State) (v w : BitVec 32) : (s.setVal v).setVal w = s.setVal w := rfl
/-- Writing back what `sum` holds changes nothing. -/
@[simp] theorem State.setSum_self (s : State) : s.setSum s.sum = s := rfl
@[simp] theorem State.setSum_setSum (s : State) (v w : BitVec 8) : (s.setSum v).setSum w = s.setSum w := rfl
/-- Writing back what `err` holds changes nothing. -/
@[simp] theorem State.setErr_self (s : State) : s.setErr s.err = s := rfl
@[simp] theorem State.setErr_setErr (s : State) (v w : BitVec 4) : (s.setErr v).setErr w = s.setErr w := rfl
/-- Writing back what `txt` holds changes nothing. -/
@[simp] theorem State.setTxt_self (s : State) : s.setTxt s.txt = s := rfl
@[simp] theorem State.setTxt_setTxt (s : State) (v w : Vector (BitVec 21) 32) : (s.setTxt v).setTxt w = s.setTxt w := rfl
/-- Writing back what `tlen` holds changes nothing. -/
@[simp] theorem State.setTlen_self (s : State) : s.setTlen s.tlen = s := rfl
@[simp] theorem State.setTlen_setTlen (s : State) (v w : BitVec 6) : (s.setTlen v).setTlen w = s.setTlen w := rfl
/-- Writing back what `inputs` holds changes nothing. -/
@[simp] theorem State.setInputs_self (s : State) : s.setInputs s.inputs = s := rfl
@[simp] theorem State.setInputs_setInputs (s : State) (v w : List HostEvent) : (s.setInputs v).setInputs w = s.setInputs w := rfl
/-- Writing back what `resp` holds changes nothing. -/
@[simp] theorem State.setResp_self (s : State) : s.setResp s.resp = s := rfl
@[simp] theorem State.setResp_setResp (s : State) (v w : Response) : (s.setResp v).setResp w = s.setResp w := rfl

/-! Writing a field's own value, where the value is only known to be equal to it. -/

theorem State.setSyms_of_eq {s : State} {v : Vector (BitVec 6) 20} (h : s.sym = v) : s.setSyms v = s := by
  rw [← h, State.setSyms_self]
theorem State.setLen_of_eq {s : State} {v : BitVec 5} (h : s.len = v) : s.setLen v = s := by
  rw [← h, State.setLen_self]
theorem State.setRegion_of_eq {s : State} {v : BitVec 1} (h : s.region = v) : s.setRegion v = s := by
  rw [← h, State.setRegion_self]
theorem State.setVal_of_eq {s : State} {v : BitVec 32} (h : s.val = v) : s.setVal v = s := by
  rw [← h, State.setVal_self]
theorem State.setSum_of_eq {s : State} {v : BitVec 8} (h : s.sum = v) : s.setSum v = s := by
  rw [← h, State.setSum_self]
theorem State.setErr_of_eq {s : State} {v : BitVec 4} (h : s.err = v) : s.setErr v = s := by
  rw [← h, State.setErr_self]
theorem State.setTxt_of_eq {s : State} {v : Vector (BitVec 21) 32} (h : s.txt = v) : s.setTxt v = s := by
  rw [← h, State.setTxt_self]
theorem State.setTlen_of_eq {s : State} {v : BitVec 6} (h : s.tlen = v) : s.setTlen v = s := by
  rw [← h, State.setTlen_self]
theorem State.setInputs_of_eq {s : State} {v : List HostEvent} (h : s.inputs = v) : s.setInputs v = s := by
  rw [← h, State.setInputs_self]
theorem State.setResp_of_eq {s : State} {v : Response} (h : s.resp = v) : s.setResp v = s := by
  rw [← h, State.setResp_self]

end Sys2Proof.Machine
end

