-- ==== Sys2Proof/Laws/Ops.lean ====
section
/-! SUPPORT. What each shared operation can do, said once. -/

namespace Sys2Proof.Machine

/-! ### Symbols -/

theorem symAt_of_lt (m : Symbols) {i : Nat} (h : i < 20) : symAt m i = m[i] := by
  simp [symAt, h]

theorem symAt_of_ge (m : Symbols) {i : Nat} (h : 20 ≤ i) : symAt m i = 0 := by
  simp [symAt, Nat.not_lt.mpr h]

theorem symAt_ofFn (f : Fin 20 → Symbol) {i : Nat} (h : i < 20) :
    symAt (Vector.ofFn f) i = f ⟨i, h⟩ := by
  simp [symAt_of_lt _ h]

/-- Two symbol buffers with the same symbols are the same. -/
theorem symbols_ext {a b : Symbols} (h : ∀ i, i < 20 → symAt a i = symAt b i) : a = b := by
  apply Vector.ext
  intro i hi
  simpa [symAt_of_lt _ hi] using h i hi

/-- What a symbol write does to every symbol. -/
theorem symAt_putSym (m : Symbols) (i j : Nat) (x : Symbol) :
    symAt (putSym m i x) j = if i = j ∧ j < 20 then x else symAt m j := by
  by_cases hj : j < 20
  · simp [symAt_of_lt _ hj, putSym, hj, Vector.getElem_setIfInBounds]
  · simp [symAt_of_ge _ (Nat.not_lt.mp hj), hj]

/-- What a bit write does to every bit of a symbol. -/
theorem getLsbD_putBit (x : Symbol) {j : Nat} (hj : j < 6) (b : Bool) (k : Nat) :
    (putBit x j b).getLsbD k = if k = j then b else x.getLsbD k := by
  have hk : k ≥ 6 → x.getLsbD k = false := fun h => BitVec.getLsbD_of_ge x k h
  cases b <;> simp [putBit, BitVec.getLsbD_one] <;> by_cases hkj : k = j <;>
    by_cases hk6 : k < 6 <;> simp_all <;> omega

/-! ### Stream bits and fields -/

theorem sbit_of_ge (m : Symbols) {p : Nat} (h : 120 ≤ p) : sbit m p = false := by
  simp [sbit, symAt_of_ge m (i := p / 6) (by omega)]

/-- What a stream-bit write does to every stream bit. -/
theorem sbit_putSbit (m : Symbols) {p : Nat} (hp : p < 120) (b : Bool) (q : Nat) :
    sbit (putSbit m p b) q = if q = p then b else sbit m q := by
  unfold sbit putSbit
  rw [symAt_putSym]
  by_cases hs : p / 6 = q / 6
  · have hq : q / 6 < 20 := by omega
    rw [if_pos ⟨hs, hq⟩, getLsbD_putBit _ (by omega)]
    have : (5 - q % 6 = 5 - p % 6) ↔ q = p := by omega
    simp only [this, hs]
  · rw [if_neg (by tauto), if_neg (by rintro rfl; exact hs rfl)]

/-- Two symbol buffers with the same stream bits are the same. -/
theorem symbols_ext_sbit {a b : Symbols} (h : ∀ p, p < 120 → sbit a p = sbit b p) : a = b := by
  refine symbols_ext fun i hi => BitVec.eq_of_getLsbD_eq fun j hj => ?_
  have := h (6 * i + (5 - j)) (by omega)
  rw [sbit, sbit, show (6 * i + (5 - j)) / 6 = i by omega,
    show 5 - (6 * i + (5 - j)) % 6 = j by omega] at this
  exact this

/-- What an insert does to every stream bit. -/
theorem sbit_insertField (m : Symbols) (o : Nat) (v : Word) (w : Nat) (h : o + w ≤ 120) (q : Nat) :
    sbit (insertField m o v w) q =
      if o ≤ q ∧ q < o + w then v.getLsbD (q - o) else sbit m q := by
  induction w with
  | zero => rw [insertField, if_neg (by omega)]
  | succ w ih =>
    rw [insertField, sbit_putSbit _ (by omega), ih (by omega)]
    by_cases hq : q = o + w
    · rw [if_pos hq, if_pos (by omega), hq, Nat.add_sub_cancel_left]
    · rw [if_neg hq]
      congr 1
      exact propext ⟨by omega, by omega⟩

theorem fieldValue_lt (m : Symbols) (o w : Nat) : fieldValue m o w < 2 ^ w := by
  induction w with
  | zero => simp [fieldValue]
  | succ w ih =>
    have : (sbit m (o + w)).toNat ≤ 1 := Bool.toNat_le _
    rw [fieldValue, Nat.pow_succ]
    nlinarith [Nat.mul_le_mul_right (2 ^ w) this]

/-- The bits of a field's value are its stream bits, the first least significant. -/
theorem testBit_fieldValue (m : Symbols) (o w j : Nat) :
    (fieldValue m o w).testBit j = (decide (j < w) && sbit m (o + j)) := by
  induction w with
  | zero => simp [fieldValue]
  | succ w ih =>
    rw [fieldValue, Nat.add_comm, Nat.mul_comm, Nat.testBit_two_pow_mul_add _ (fieldValue_lt m o w), ih]
    by_cases hj : j < w
    · simp [hj, Nat.lt_succ_of_lt hj]
    · rcases Nat.lt_or_eq_of_le (Nat.not_lt.mp hj) with h | h
      · obtain ⟨d, hd⟩ : ∃ d, j - w = d + 1 := ⟨j - w - 1, by omega⟩
        have : ¬ j < w + 1 := by omega
        cases sbit m (o + w) <;> simp [hj, hd, this, Nat.testBit_succ]
      · subst h
        cases hb : sbit m (o + w) <;> simp

/-- A field of `a + b` bits is its first `a` bits and, above them, its other `b` bits. -/
theorem fieldValue_add (m : Symbols) (o a b : Nat) :
    fieldValue m o (a + b) = fieldValue m o a + 2 ^ a * fieldValue m (o + a) b := by
  induction b with
  | zero => simp [fieldValue]
  | succ b ih =>
    rw [← Nat.add_assoc, fieldValue, ih, fieldValue, Nat.pow_add, ← Nat.add_assoc o a b]
    ring

/-! ### Sums -/

/-- The sum of the first `n` symbols reads those symbols alone. -/
theorem sumFirst_congr {a b : Symbols} {n : Nat} (h : ∀ i, i < n → symAt a i = symAt b i) :
    sumFirst a n = sumFirst b n := by
  induction n with
  | zero => rfl
  | succ n ih => rw [sumFirst, sumFirst, ih fun i hi => h i (by omega), h n (by omega)]

/-! ### The latch -/

theorem latched_eq_false {s : State} : latched s = false ↔ s.err = 0 := by simp [latched]

theorem latched_eq_true {s : State} : latched s = true ↔ s.err ≠ 0 := by simp [latched]

theorem raise_of_clear {e : ErrCode} {s : State} (h : s.err = 0) : raise e s = s.setErr e.code := by
  simp [raise, latched, h]

theorem raise_of_latched {e : ErrCode} {s : State} (h : s.err ≠ 0) : raise e s = s := by
  rw [raise, if_pos (latched_eq_true.mpr h)]

/-- All the error outcome can do: nothing, or the code into a latch that was 0. -/
theorem raise_cases (e : ErrCode) (s : State) :
    (s.err ≠ 0 ∧ raise e s = s) ∨ (s.err = 0 ∧ raise e s = s.setErr e.code) := by
  by_cases h : s.err = 0
  · exact .inr ⟨h, raise_of_clear h⟩
  · exact .inl ⟨h, raise_of_latched h⟩

theorem issue_of_clear {s body : State} (h : s.err = 0) : issue true s body = body := by
  simp [issue, latched, h]

theorem issue_of_latched {legal : Bool} {s body : State} (h : s.err ≠ 0) :
    issue legal s body = s := by
  rw [issue, if_pos (latched_eq_true.mpr h)]

/-- All the issue of a command can do: ignore it, raise ILLEGAL_CMD, or its body. -/
theorem issue_cases (legal : Bool) (s body : State) :
    (s.err ≠ 0 ∧ issue legal s body = s) ∨
    (s.err = 0 ∧ legal = false ∧ issue legal s body = s.setErr ErrCode.illegalCmd.code) ∨
    (s.err = 0 ∧ legal = true ∧ issue legal s body = body) := by
  by_cases h : s.err = 0
  · cases legal
    · exact .inr (.inl ⟨h, rfl, by simp [issue, latched, h, raise]⟩)
    · exact .inr (.inr ⟨h, rfl, issue_of_clear h⟩)
  · exact .inl ⟨h, issue_of_latched h⟩

/-- Every code is 1..7 (60_exceptions.md R211). -/
theorem ErrCode.code_bounds (e : ErrCode) : 1 ≤ e.code.toNat ∧ e.code.toNat ≤ 7 := by
  cases e <;> decide

end Sys2Proof.Machine
end

