-- ==== Sys2Proof/Laws/Cipher.lean ====
section
/-! SUPPORT. What XCIPH's operation does to each symbol (41_cipher.md R120). -/

namespace Sys2Proof.Machine

theorem symAt_xorStream (t : CipherTable) (pos n : Nat) (m : Symbols) {i : Nat} (hi : i < 20) :
    symAt (xorStream t pos n m) i =
      if i < n then symAt m i ^^^ keystream t (pos + i) else symAt m i := by
  simp [xorStream, symAt_of_lt, hi]

/-- Symbol 0 keeps the key in its top 3 bits; the other active symbols are XORed; the rest stay. -/
theorem symAt_xcipher (t : CipherTable) (n : Nat) (m : Symbols) {i : Nat} (hi : i < 20) :
    symAt (xcipher t n m) i =
      if i = 0 then
        (engineKey m <<< 3) |||
          ((if 0 < n then symAt m 0 ^^^ keystream t (4 * (engineKey m).toNat) else symAt m 0) &&& 7)
      else if i < n then symAt m i ^^^ keystream t (4 * (engineKey m).toNat + i)
      else symAt m i := by
  rw [xcipher]
  simp only [symAt_putSym, symAt_xorStream t _ n m hi, symAt_xorStream t _ n m (show 0 < 20 by omega)]
  by_cases h : i = 0
  · subst h; simp
  · simp [h, Ne.symm h]

/-- XCIPH leaves the engine key as it is (41_cipher.md R122). -/
theorem engineKey_xcipher (t : CipherTable) (n : Nat) (m : Symbols) :
    engineKey (xcipher t n m) = engineKey m := by
  have hk : ∀ x y : Symbol, (((x >>> 3) <<< 3) ||| (y &&& 7)) >>> 3 = x >>> 3 := by decide +kernel
  rw [engineKey, symAt_xcipher t n m (by omega), if_pos rfl]
  exact hk _ _

end Sys2Proof.Machine
end

