-- ==== Sys2Proof/Laws/Decode.lean ====
section
/-! SUPPORT. The fields of a command word, and what a decoded word says (30_encoding.md R70..R78). -/

namespace Sys2Proof

/-- The fields of a word as numbers. -/
theorem toNat_fields (c : Word) :
    (opField c).toNat = c.toNat % 64 ∧ (offField c).toNat = c.toNat / 64 % 128 ∧
    (widField c).toNat = c.toNat / 8192 % 64 ∧ (kField c).toNat = c.toNat / 524288 % 8 ∧
    (rsvField c).toNat = c.toNat / 4194304 := by
  have := c.isLt
  simp only [opField, offField, widField, kField, rsvField, BitVec.extractLsb'_toNat,
    Nat.shiftRight_eq_div_pow]
  norm_num
  omega

/-- A command word as a number. -/
theorem toNat_assemble (op : BitVec 6) (off : BitVec 7) (wid : BitVec 6) (k : BitVec 3) :
    (assemble op off wid k).toNat =
      op.toNat + off.toNat * 64 + wid.toNat * 8192 + k.toNat * 524288 := by
  have := op.isLt
  have := off.isLt
  have := wid.isLt
  have := k.isLt
  simp only [assemble, BitVec.toNat_ofNat]
  omega

theorem opField_assemble (op : BitVec 6) (off : BitVec 7) (wid : BitVec 6) (k : BitVec 3) :
    opField (assemble op off wid k) = op := by
  apply BitVec.eq_of_toNat_eq
  have := op.isLt
  rw [(toNat_fields _).1, toNat_assemble]
  omega

theorem offField_assemble (op : BitVec 6) (off : BitVec 7) (wid : BitVec 6) (k : BitVec 3) :
    offField (assemble op off wid k) = off := by
  apply BitVec.eq_of_toNat_eq
  have := op.isLt
  have := off.isLt
  rw [(toNat_fields _).2.1, toNat_assemble]
  omega

theorem widField_assemble (op : BitVec 6) (off : BitVec 7) (wid : BitVec 6) (k : BitVec 3) :
    widField (assemble op off wid k) = wid := by
  apply BitVec.eq_of_toNat_eq
  have := op.isLt
  have := off.isLt
  have := wid.isLt
  rw [(toNat_fields _).2.2.1, toNat_assemble]
  omega

theorem kField_assemble (op : BitVec 6) (off : BitVec 7) (wid : BitVec 6) (k : BitVec 3) :
    kField (assemble op off wid k) = k := by
  apply BitVec.eq_of_toNat_eq
  have := op.isLt
  have := off.isLt
  have := wid.isLt
  have := k.isLt
  rw [(toNat_fields _).2.2.2.1, toNat_assemble]
  omega

theorem rsvField_assemble (op : BitVec 6) (off : BitVec 7) (wid : BitVec 6) (k : BitVec 3) :
    rsvField (assemble op off wid k) = 0 := by
  apply BitVec.eq_of_toNat_eq
  have := op.isLt
  have := off.isLt
  have := wid.isLt
  have := k.isLt
  rw [(toNat_fields _).2.2.2.2, toNat_assemble]
  rw [show (0 : BitVec 10).toNat = 0 from rfl]
  omega

/-- A word with RSV = 0 is its other four fields. -/
theorem assemble_fields (c : Word) (h : rsvField c = 0) :
    assemble (opField c) (offField c) (widField c) (kField c) = c := by
  obtain ⟨h1, h2, h3, h4, h5⟩ := toNat_fields c
  apply BitVec.eq_of_toNat_eq
  have h0 : (rsvField c).toNat = 0 := by rw [h]; rfl
  rw [toNat_assemble]
  omega

/-- A word decodes to `i` exactly where its reserved bits are 0 and its fields give `i`. -/
theorem decode_eq_ok (c : Word) (i : Instr) : decode c = .ok i ↔
    rsvField c = 0 ∧ decodeOp (opField c).toNat (offField c) (widField c) (kField c) = .ok i := by
  unfold decode
  cases h : decodeOp (opField c).toNat (offField c) (widField c) (kField c) with
  | error e =>
    cases e <;> simp
    all_goals split <;> simp
  | ok j =>
    dsimp only
    by_cases hr : rsvField c = 0
    · rw [if_pos hr, and_iff_right hr]
    · rw [if_neg hr]
      exact ⟨fun h => (by cases h), fun h => absurd h.1 hr⟩

end Sys2Proof
end

