-- ==== Sys2Proof/Laws/Exec.lean ====
section
/-! SUPPORT. All a command can do, said once: an invariant of the commands is derived from
`exec_cases` and a case split over `Effect`, with no meaning unfolded again. -/

namespace Sys2Proof.Machine

/-- The effect of a command that passes the latch and its checks, and writes a data register. -/
inductive Effect (s : State) : Instr → State → Prop where
  | clrsym : Effect s .clrsym (s.setSyms (Vector.replicate 20 0))
  | ext (off : BitVec 7) (wid : BitVec 6) (hw : wid.toNat ≤ 32)
      (hf : off.toNat + wid.toNat ≤ 6 * s.len.toNat) :
      Effect s (.ext off wid) (s.setVal (BitVec.ofNat 32 (fieldValue s.sym off.toNat wid.toNat)))
  | ins (off : BitVec 7) (wid : BitVec 6) (hw : wid.toNat ≤ 32)
      (hf : off.toNat + wid.toNat ≤ 6 * s.len.toNat) :
      Effect s (.ins off wid) (s.setSyms (insertField s.sym off.toNat s.val wid.toNat))
  | xciph : Effect s .xciph
      (s.setSyms (xcipher (cipherTable (activeRegion s)) (activeLen s) s.sym))
  | csum : Effect s .csum (s.setSum (BitVec.ofNat 8 (sumFirst s.sym (lastIndex s))))
  | cstore : Effect s .cstore
      (s.setSyms (putSym s.sym (lastIndex s) (withNibble (symAt s.sym (lastIndex s)) s.sum)))
  | lutf (h : s.val.toNat ≤ 63) : Effect s .lutf
      (s.setVal ((glyph (alphabet (activeRegion s)) (s.val.setWidth 6)).setWidth 32))
  | lutr (v : Symbol) (h : symbolOf (alphabet (activeRegion s)) s.val.toNat = some v) :
      Effect s .lutr (s.setVal (v.setWidth 32))
  | fmt : Effect s .fmt
      ((s.setTxt (writeText s.txt (groupedText (alphabet (activeRegion s)) s.sym (activeLen s)))).setTlen
        (BitVec.ofNat 6 (groupedText (alphabet (activeRegion s)) s.sym (activeLen s)).length))
  | parse (vs : List Symbol)
      (h : parseText (alphabet (activeRegion s)) (activeText s) = some vs)
      (hl : vs.length = activeLen s) : Effect s .parse (s.setSyms (loadSyms s.sym vs))

theorem fieldFits_iff {off : BitVec 7} {wid : BitVec 6} {s : State} :
    fieldFits off wid s = true ↔ off.toNat + wid.toNat ≤ 6 * s.len.toNat := by simp [fieldFits]

theorem legalWidth_iff {wid : BitVec 6} : legalWidth wid = true ↔ wid.toNat ≤ 32 := by
  simp [legalWidth]

/-- The issue of a command whose body is a check: what is left is the state as it was, a raised
error, or the checked body. -/
theorem issue_check {legal : Bool} {c : Prop} [Decidable c] {e : ErrCode} {s body : State} :
    issue legal s (if c then body else raise e s) = s ∨
    (s.err = 0 ∧ ∃ e', issue legal s (if c then body else raise e s) = s.setErr (ErrCode.code e')) ∨
    (s.err = 0 ∧ legal = true ∧ c ∧ issue legal s (if c then body else raise e s) = body) := by
  rcases issue_cases legal s (if c then body else raise e s) with ⟨_, h⟩ | ⟨h0, _, h⟩ | ⟨h0, hl, h⟩
  · exact .inl h
  · exact .inr (.inl ⟨h0, _, h⟩)
  · by_cases hc : c
    · rw [if_pos hc] at h ⊢
      exact .inr (.inr ⟨h0, hl, hc, h⟩)
    · rw [if_neg hc, raise_of_clear h0] at h
      exact .inr (.inl ⟨h0, _, by rw [if_neg hc, raise_of_clear h0, h]⟩)

/-- All a command can do: nothing; an error latched into an ERR of 0; the latch cleared, by CLRERR;
or its effect on a data register, with ERR = 0. -/
theorem exec_cases {i : Instr} {s t : State} (h : exec i s = .next t) :
    t = s ∨ (s.err = 0 ∧ ∃ e : ErrCode, t = s.setErr e.code) ∨ (i = .clrerr ∧ t = s.setErr 0) ∨
    (s.err = 0 ∧ Effect s i t) := by
  have plain : ∀ {body : State}, Effect s i body → t = issue true s body →
      t = s ∨ (s.err = 0 ∧ ∃ e : ErrCode, t = s.setErr e.code) ∨ (i = .clrerr ∧ t = s.setErr 0) ∨
      (s.err = 0 ∧ Effect s i t) := by
    intro body he ht
    rcases issue_cases true s body with ⟨_, h'⟩ | ⟨_, hl, _⟩ | ⟨h0, _, h'⟩
    · exact .inl (ht.trans h')
    · cases hl
    · exact .inr (.inr (.inr ⟨h0, ht.trans h' ▸ he⟩))
  have checked : ∀ {l : Bool} {c : Prop} [Decidable c] {e : ErrCode} {body : State},
      (l = true → c → body = s ∨ Effect s i body) →
      t = issue l s (if c then body else raise e s) →
      t = s ∨ (s.err = 0 ∧ ∃ e : ErrCode, t = s.setErr e.code) ∨ (i = .clrerr ∧ t = s.setErr 0) ∨
      (s.err = 0 ∧ Effect s i t) := by
    intro l c _ e body he ht
    rcases issue_check (legal := l) (c := c) (e := e) (s := s) (body := body) with
      h' | ⟨h0, e', h'⟩ | ⟨h0, hl, hc, h'⟩
    · exact .inl (ht.trans h')
    · exact .inr (.inl ⟨h0, e', ht.trans h'⟩)
    · rcases he hl hc with hb | hb
      · exact .inl (ht.trans (h'.trans hb))
      · exact .inr (.inr (.inr ⟨h0, ht.trans h' ▸ hb⟩))
  cases i with
  | nop => cases h; exact .inl rfl
  | clrerr => cases h; exact .inr (.inr (.inl ⟨rfl, rfl⟩))
  | clrsym => cases h; exact plain .clrsym rfl
  | ext off wid =>
    cases h
    exact checked (fun hl hc => .inr (.ext off wid (legalWidth_iff.mp hl) (fieldFits_iff.mp hc))) rfl
  | ins off wid =>
    cases h
    exact checked (fun hl hc => .inr (.ins off wid (legalWidth_iff.mp hl) (fieldFits_iff.mp hc))) rfl
  | xciph => cases h; exact plain .xciph rfl
  | csum => cases h; exact plain .csum rfl
  | cstore => cases h; exact plain .cstore rfl
  | cver k => cases h; exact checked (fun _ _ => .inl rfl) rfl
  | vkind k => cases h; exact checked (fun _ _ => .inl rfl) rfl
  | lutf => cases h; exact checked (fun _ hc => .inr (.lutf hc)) rfl
  | lutr =>
    have ht : t = issue true s (match symbolOf (alphabet (activeRegion s)) s.val.toNat with
      | some v => s.setVal (v.setWidth 32)
      | none => raise .invalidSymbol s) := by cases h; rfl
    cases hv : symbolOf (alphabet (activeRegion s)) s.val.toNat with
    | none =>
      rw [hv] at ht
      exact checked (c := False) (body := s) (fun _ hc => hc.elim) (by rw [if_neg id]; exact ht)
    | some v =>
      rw [hv] at ht
      exact plain (.lutr v hv) ht
  | fmt => cases h; exact plain .fmt rfl
  | parse =>
    have ht : t = issue true s (match parseText (alphabet (activeRegion s)) (activeText s) with
      | none => raise .invalidSymbol s
      | some vs =>
        if vs.length = activeLen s then s.setSyms (loadSyms s.sym vs)
        else raise .malformedLength s) := by cases h; rfl
    cases hv : parseText (alphabet (activeRegion s)) (activeText s) with
    | none =>
      rw [hv] at ht
      exact checked (c := False) (body := s) (fun _ hc => hc.elim) (by rw [if_neg id]; exact ht)
    | some vs =>
      rw [hv] at ht
      exact checked (fun _ hc => .inr (.parse vs hv hc)) ht

end Sys2Proof.Machine
end

