-- ==== Sys2Proof/Machine/HostProgram.lean ====
section
/-! DEFINITION. The host: the notation and pseudo-instructions of 30_encoding.md R85, R86 as lists of
accesses, and the procedures of 44_field_maps.md R188, R189. No step of the SCU reads them (log
entry 15). -/

namespace Sys2Proof.Machine

/-- `W <reg>, <value>` (30_encoding.md R85). -/
def hostWrite (r : Reg) (v : Word) : HostEvent :=
  .access { offset := regOffset r, size := 4, kind := .write v }

/-- `R <reg>` (30_encoding.md R85). -/
def hostRead (r : Reg) : HostEvent := .access { offset := regOffset r, size := 4, kind := .read }

/-- A mnemonic line, `W CMD, <encoding>` (30_encoding.md R85). -/
def hostCommand (i : Instr) : HostEvent := hostWrite .cmd (encode i)

/-- `ENC` (30_encoding.md R86). -/
def pseudoEnc : List HostEvent := [hostCommand .xciph]

/-- `DEC`, the same command (30_encoding.md R86, 41_cipher.md R122). -/
def pseudoDec : List HostEvent := [hostCommand .xciph]

/-- Words written one after another, `W <offset + 4i>, v_i`. -/
def writeRow (offset : Nat) (vs : List Word) : List HostEvent :=
  vs.mapIdx fun i v => .access { offset := offset + 4 * i, size := 4, kind := .write v }

/-- `LDSYM n: b0, ..., b(n-1)`: `W LEN, n`, then each byte to `SYM[i]` at 0x100 + 4i (30_encoding.md
R86). The spec has no SYM[20]: what more than 20 bytes stand for is open, and the model goes on to
the words that follow SYM in the window. DESIGN CHOICE, log entry 19. -/
def pseudoLdsym (bytes : List Word) : List HostEvent :=
  hostWrite .len (BitVec.ofNat 32 bytes.length) :: writeRow 0x100 bytes

/-- `INSV off, wid, v` (30_encoding.md R86). -/
def pseudoInsv (off : BitVec 7) (wid : BitVec 6) (v : Word) : List HostEvent :=
  [hostWrite .val v, hostCommand (.ins off wid)]

/-- `SEAL` (30_encoding.md R86). -/
def pseudoSeal : List HostEvent := [hostCommand .csum, hostCommand .cstore]

/-- `CHECK w` (30_encoding.md R86). -/
def pseudoCheck (w : BitVec 3) : List HostEvent := [hostCommand .csum, hostCommand (.cver w)]

/-- `LDTXT "s"`: each character to `TXT[i]` at 0x200 + 4i, then `W TLEN, len(s)` (30_encoding.md
R86). The spec has no TXT[32]: what more than 32 characters stand for is open, and the model goes on
to the words that follow TXT in the window. DESIGN CHOICE, log entry 19. -/
def pseudoLdtxt (s : List CodePoint) : List HostEvent :=
  writeRow 0x200 (s.map fun c => c.setWidth 32) ++ [hostWrite .tlen (BitVec.ofNat 32 s.length)]

/-! ### Decode -/

/-- The data a read answered; a write answers none. -/
def readData : Response → List Word
  | .idle => []
  | .done => []
  | .data v => [v]

/-- The host's accesses served one after another, from a state whose own events it replaces (the host
is the SCU's only bus master, 20_memory.md R50): the state at the end and the data of the reads;
none where an access is refused or faults. -/
def serve : List HostEvent → State → Option (State × List Word)
  | [], s => some (s, [])
  | e :: es, s =>
    match step (s.setInputs [e]) with
    | .next t => (serve es t).map fun r => (r.1, readData t.resp ++ r.2)
    | .fault _ => none
    | .refused _ => none

/-- Why the host gives up a decode. -/
inductive HostError where
  /-- A byte array that has not its kind's length: the host's own check, made before it writes LEN
  (60_exceptions.md R231; 92_eei_decisions.md D40). -/
  | malformedLength
  /-- `R STATUS` answered a nonzero code (44_field_maps.md R188). -/
  | scu (status : Word)
  /-- The bus gave no answer. No access of a procedure meets this. -/
  | bus
  deriving DecidableEq, Repr

/-- How a decode ends, and the SCU's state then. -/
inductive DecodeOutcome where
  /-- Every check passed; the values of `fieldsOf`, in its order. -/
  | fields (s : State) (values : List Word)
  /-- The host stopped, and read no field. -/
  | stopped (s : State) (e : HostError)
  deriving DecidableEq, Repr

/-- The checks of a decode and the read that covers them: `DEC ; VKIND k ; CHECK w ; R STATUS`
(44_field_maps.md R188). -/
def decodeChecks (kind : SecretKind) : List HostEvent :=
  pseudoDec ++ [hostCommand (.vkind (kindCode kind))] ++ pseudoCheck (checksumWidth kind) ++
    [hostRead .status]

/-- `EXT off, wid ; R VAL` for each field (44_field_maps.md R188). -/
def fieldReads (kind : SecretKind) : List HostEvent :=
  (fieldsOf kind).flatMap fun f => [hostCommand (.ext f.off f.wid), hostRead .val]

/-- The host decode procedure once the accesses that load the secret are known: only where
`R STATUS` answers 0 does the host go on to read fields (44_field_maps.md R188). The only reads
before that are the one of STATUS. -/
def hostDecode (kind : SecretKind) (load : List HostEvent) (s : State) : DecodeOutcome :=
  match serve (load ++ decodeChecks kind) s with
  | none => .stopped s .bus
  | some (t, answers) =>
    if answers = [0] then
      match serve (fieldReads kind) t with
      | none => .stopped t .bus
      | some (u, values) => .fields u values
    else .stopped t (.scu (answers.getD 0 0))

/-- The host decode procedure from symbol bytes: their number is checked against the kind before LEN
is written (44_field_maps.md R188; 60_exceptions.md R231). -/
def hostDecodeBytes (kind : SecretKind) (region : Word) (bytes : List Word) (s : State) :
    DecodeOutcome :=
  if bytes.length = secretLength kind then
    hostDecode kind (hostWrite .region region :: pseudoLdsym bytes) s
  else .stopped s .malformedLength

/-- The host decode procedure from text; PARSE checks the number of symbols (44_field_maps.md R188;
60_exceptions.md R231). -/
def hostDecodeText (kind : SecretKind) (region : Word) (text : List CodePoint) (s : State) :
    DecodeOutcome :=
  hostDecode kind
    (hostWrite .region region :: pseudoLdtxt text ++
      [hostWrite .len (BitVec.ofNat 32 (secretLength kind)), hostCommand .parse]) s

/-! ### Encode -/

/-- The host encode procedure: the key field and the other fields' values in the order of
`fieldsOf`, the discriminator being the kind's; then what is inserted before SEAL, SEAL, ENC and,
for the text form, FMT (44_field_maps.md R189). -/
def hostEncode (kind : SecretKind) (region keyField : Word) (values : List Word)
    (beforeSeal : List HostEvent) (asText : Bool) : List HostEvent :=
  [hostWrite .region region, hostWrite .len (BitVec.ofNat 32 (secretLength kind)),
   hostCommand .clrsym] ++
    ((fieldsOf kind).zip (keyField :: (kindCode kind).setWidth 32 :: values)).flatMap
      (fun fv => pseudoInsv fv.1.off fv.1.wid fv.2) ++
    beforeSeal ++ pseudoSeal ++ pseudoEnc ++ (if asText then [hostCommand .fmt] else [])

/-- The RingSecret encode: the ring mask's bytes go to their fields (44_field_maps.md R184, R189). -/
def hostEncodeRing (region keyField gameId : Word) (mask : BitVec 64) (asText : Bool) :
    List HostEvent :=
  hostEncode .ring region keyField
    (gameId :: (List.finRange 8).map fun j => (ringByte mask j).setWidth 32) [] asText

/-- The extra insert of a MemorySecret: the mask into bits 5:4 of symbol 4, before or after SEAL
(44_field_maps.md R189, 42_checksum.md R134). -/
def insertMask (mask : BitVec 2) : List HostEvent :=
  pseudoInsv 24 2 ((reverseMask mask).setWidth 32)

/-- One candidate of the MemorySecret encode: the mask in the key field and in symbol 4
(44_field_maps.md R186, R189). The trial over the four masks is the host's (00_scope.md R6 (c)).
The spec gives the memory index the values 0..9 (R185) and does not say what a host does with 10..15:
the model encodes them as it does the others, with no check. DESIGN CHOICE, log entry 18. -/
def hostEncodeMemoryMask (region gameId : Word) (index : BitVec 4) (mask : BitVec 2) (asText : Bool) :
    List HostEvent :=
  hostEncode .memory region ((memoryKeyField index mask).setWidth 32)
    [gameId, index.setWidth 32] (insertMask mask) asText

/-- The MemorySecret encode for a target game and return flag (44_field_maps.md R186; log entry 14). -/
def hostEncodeMemory (region gameId : Word) (index : BitVec 4) (g : TargetGame) (isReturn asText : Bool) :
    List HostEvent :=
  hostEncodeMemoryMask region gameId index (memoryMask g isReturn) asText

end Sys2Proof.Machine
end

