-- ==== Sys2Proof/Laws/HostProgram.lean ====
section
/-! SUPPORT. What the ring mask is, bit by bit, and what the host's procedures can do. -/

namespace Sys2Proof.Machine

/-- Bit `i` of the ring mask is a stream bit (44_field_maps.md R184). -/
theorem getLsbD_ringMask (m : Symbols) {i : Nat} (hi : i < 64) :
    (ringMask m).getLsbD i =
      sbit m ((ringByteOffset (Fin.ofNat 8 (i / 8))).toNat + i % 8) := by
  rw [ringMask, BitVec.getLsbD_ofFnLE, dif_pos hi]

/-- A byte of a ring mask, as a number (44_field_maps.md R184). -/
theorem toNat_ringByte (mask : BitVec 64) (j : Fin 8) :
    (ringByte mask j).toNat = mask.toNat / 2 ^ (8 * j.val) % 2 ^ 8 := by
  rw [ringByte, BitVec.extractLsb'_toNat, Nat.shiftRight_eq_div_pow]

/-- Accesses served after others: the second run starts where the first ended. -/
theorem serve_append (xs ys : List HostEvent) (s : State) :
    serve (xs ++ ys) s =
      (serve xs s).bind fun r => (serve ys r.1).map fun q => (q.1, r.2 ++ q.2) := by
  induction xs generalizing s with
  | nil => simp [serve]
  | cons e es ih =>
    rw [List.cons_append, serve, serve]
    cases step (s.setInputs [e]) with
    | next t =>
      simp only [ih]
      cases serve es t with
      | none => rfl
      | some r => simp [Function.comp_def]
    | fault _ => rfl
    | refused _ => rfl

/-- A decode that gives fields read STATUS as 0 first, and read the fields from the state in which it
did (44_field_maps.md R188). -/
theorem hostDecode_fields {kind : SecretKind} {load : List HostEvent} {s u : State}
    {values : List Word} (h : hostDecode kind load s = .fields u values) :
    ∃ t, serve (load ++ decodeChecks kind) s = some (t, [0]) ∧
      serve (fieldReads kind) t = some (u, values) := by
  unfold hostDecode at h
  split at h
  · cases h
  · rename_i t answers ht
    split at h
    · rename_i ha
      split at h
      · cases h
      · rename_i hu
        cases h
        exact ⟨t, ha ▸ ht, hu⟩
    · cases h

end Sys2Proof.Machine
end

