-- ==== Sys2Proof/Laws/Tables.lean ====
section
/-! SUPPORT. The alphabets: both are legal, and the inverse map inverts them (43_lut.md R150, R151). -/

namespace Sys2Proof.Machine

theorem legalAlphabet_iff (a : Alphabet) : legalAlphabet a = true ↔
    (∀ v, isPrintable (a v).toNat = true) ∧ Function.Injective a := by
  have hnd : ((List.finRange 64).map a).Nodup ↔ Function.Injective a := by
    constructor
    · intro h u v huv
      exact List.inj_on_of_nodup_map h (List.mem_finRange u) (List.mem_finRange v) huv
    · intro h
      exact (List.nodup_finRange 64).map h
  simp [legalAlphabet, hnd]

theorem legal_alphaUSReference : legalAlphabet alphaUSReference = true := by decide +kernel

theorem legal_alphaUS : legalAlphabet alphaUS = true := by
  by_cases h : legalAlphabet alphaUSOverlay = true
  · have : alphaUS = alphaUSOverlay := by
      funext v
      by_cases hv : v ∈ settledSymbols <;> simp [alphaUS, alphaUSOverlay, hv, h]
    rw [this, h]
  · have : alphaUS = alphaUSReference := by
      funext v
      simp [alphaUS, h]
    rw [this, legal_alphaUSReference]

theorem legal_alphaJP : legalAlphabet alphaJP = true := by
  by_cases h : legalAlphabet Config.alphaJPOpen = true
  · have : alphaJP = Config.alphaJPOpen := by
      funext v
      simp [alphaJP, h]
    rw [this, h]
  · have : alphaJP = alphaUSReference := by
      funext v
      simp [alphaJP, h]
    rw [this, legal_alphaUSReference]

/-- Both regions' alphabets are legal (43_lut.md R150, R151). -/
theorem legal_alphabet (r : Region) : legalAlphabet (alphabet r) = true := by
  cases r
  · exact legal_alphaUS
  · exact legal_alphaJP

theorem alphabet_injective (r : Region) : Function.Injective (alphabet r) :=
  ((legalAlphabet_iff _).mp (legal_alphabet r)).2

theorem glyph_injective (r : Region) : Function.Injective (glyph (alphabet r)) := by
  intro u v h
  exact BitVec.eq_of_toFin_eq (alphabet_injective r h)

/-- Every character of an alphabet is printable (43_lut.md R150). -/
theorem glyph_printable (r : Region) (v : Symbol) :
    isPrintable (glyph (alphabet r) v).toNat = true :=
  ((legalAlphabet_iff _).mp (legal_alphabet r)).1 v.toFin

/-- A character that is not printable is none of an alphabet (43_lut.md R151, R165). -/
theorem glyph_ne {c : CodePoint} (hc : isPrintable c.toNat = false) (r : Region) (v : Symbol) :
    glyph (alphabet r) v ≠ c := by
  rintro rfl
  rw [glyph_printable] at hc
  cases hc

theorem glyph_ne_space (r : Region) (v : Symbol) : glyph (alphabet r) v ≠ 0x20 :=
  glyph_ne (by decide) r v

theorem glyph_ne_zero (r : Region) (v : Symbol) : glyph (alphabet r) v ≠ 0 :=
  glyph_ne (by decide) r v

theorem mem_searchOrder (v : Fin 64) : v ∈ searchOrder := by
  revert v
  decide

/-- What the inverse map answers: the symbol whose character has the number (43_lut.md R150). -/
theorem symbolOf_eq_some (r : Region) (c : Nat) (v : Symbol) :
    symbolOf (alphabet r) c = some v ↔ (glyph (alphabet r) v).toNat = c := by
  constructor
  · intro h
    unfold symbolOf at h
    split at h
    · obtain ⟨u, hu, rfl⟩ := Option.map_eq_some_iff.mp h
      simpa [glyph] using List.find?_some hu
    · cases h
  · rintro rfl
    rw [symbolOf, if_pos (glyph_printable r v)]
    cases hf : searchOrder.find? fun u => (alphabet r u).toNat == (glyph (alphabet r) v).toNat with
    | none =>
      have := List.find?_eq_none.mp hf v.toFin (mem_searchOrder _)
      simp [glyph] at this
    | some u =>
      have hu := List.find?_some hf
      have : u = v.toFin := alphabet_injective r (BitVec.eq_of_toNat_eq (by simpa [glyph] using hu))
      simp [this]

theorem symbolOf_glyph (r : Region) (v : Symbol) :
    symbolOf (alphabet r) (glyph (alphabet r) v).toNat = some v :=
  (symbolOf_eq_some r _ v).mpr rfl

/-- A character that is no entry has no symbol (43_lut.md R150). -/
theorem symbolOf_eq_none (r : Region) (c : Nat) :
    symbolOf (alphabet r) c = none ↔ ∀ v, (glyph (alphabet r) v).toNat ≠ c := by
  constructor
  · intro h v hv
    rw [(symbolOf_eq_some r c v).mpr hv] at h
    cases h
  · intro h
    cases hs : symbolOf (alphabet r) c with
    | none => rfl
    | some v => exact absurd ((symbolOf_eq_some r c v).mp hs) (h v)

end Sys2Proof.Machine
end

