-- ==== Sys2Proof/Laws/Lut.lean ====
section
/-! SUPPORT. What FMT's and PARSE's operations do (43_lut.md R162 to R165). -/

namespace Sys2Proof.Machine

/-- The length of a grouped text (43_lut.md R163). -/
theorem length_groupedText (a : Alphabet) (m : Symbols) (n : Nat) :
    (groupedText a m n).length = n + (n - 1) / 5 := by
  induction n with
  | zero => rfl
  | succ n ih =>
    rw [groupedText, List.length_append, List.length_append, ih]
    by_cases h : 0 < n ∧ n % 5 = 0
    · simp [h]; omega
    · simp only [if_neg h, List.length_nil, List.length_singleton]; omega

/-- A grouped text reads the first `n` symbols alone. -/
theorem groupedText_congr (a : Alphabet) {m m' : Symbols} {n : Nat}
    (h : ∀ i, i < n → symAt m i = symAt m' i) : groupedText a m n = groupedText a m' n := by
  induction n with
  | zero => rfl
  | succ n ih => rw [groupedText, groupedText, ih fun i hi => h i (by omega), h n (by omega)]

theorem parseText_append (a : Alphabet) (xs ys : List CodePoint) {us vs : List Symbol}
    (hx : parseText a xs = some us) (hy : parseText a ys = some vs) :
    parseText a (xs ++ ys) = some (us ++ vs) := by
  induction xs generalizing us with
  | nil => cases hx; simpa using hy
  | cons c cs ih =>
    rw [parseText] at hx
    rw [List.cons_append, parseText]
    split at hx
    · rename_i hc
      rw [if_pos hc, ih hx]
    · rename_i hc
      rw [if_neg hc]
      split at hx
      · cases hx
      · rename_i v hv
        obtain ⟨ws, hws, rfl⟩ := Option.map_eq_some_iff.mp hx
        simp [ih hws]

/-- A text parses to `vs` exactly where its characters but the spaces are those of `vs` (43_lut.md
R165). -/
theorem parseText_eq_some (r : Region) (cs : List CodePoint) (vs : List Symbol) :
    parseText (alphabet r) cs = some vs ↔
      vs.map (glyph (alphabet r)) = cs.filter fun c => c ≠ 0x20 := by
  induction cs generalizing vs with
  | nil => cases vs <;> simp [parseText]
  | cons c cs ih =>
    rw [parseText]
    by_cases hc : c = 0x20
    · simp [hc, ih]
    · rw [if_neg hc]
      have hf : (c :: cs).filter (fun c => decide (c ≠ 0x20)) =
          c :: cs.filter fun c => decide (c ≠ 0x20) :=
        List.filter_cons_of_pos (decide_eq_true hc)
      rw [hf]
      cases hs : symbolOf (alphabet r) c.toNat with
      | none =>
        simp only [reduceCtorEq, false_iff]
        cases vs with
        | nil => simp
        | cons v vs =>
          intro h
          have := (symbolOf_eq_none r _).mp hs v
          simp at h
          exact this (by rw [h.1])
      | some u =>
        have hu := BitVec.eq_of_toNat_eq ((symbolOf_eq_some r _ u).mp hs)
        simp only [Option.map_eq_some_iff]
        constructor
        · rintro ⟨ws, hws, rfl⟩
          simp [hu, (ih ws).mp hws]
        · intro h
          cases vs with
          | nil => simp at h
          | cons v vs =>
            simp only [List.map_cons, List.cons.injEq] at h
            exact ⟨vs, (ih vs).mpr h.2, by rw [glyph_injective r (hu.trans h.1.symm)]⟩

/-- A text parses to nothing exactly where a character that is no space is no entry (43_lut.md R165). -/
theorem parseText_eq_none (r : Region) (cs : List CodePoint) :
    parseText (alphabet r) cs = none ↔
      ∃ c ∈ cs, c ≠ 0x20 ∧ ∀ v, glyph (alphabet r) v ≠ c := by
  induction cs with
  | nil => simp [parseText]
  | cons c cs ih =>
    rw [parseText]
    by_cases hc : c = 0x20
    · simp [hc, ih]
    · rw [if_neg hc]
      cases hs : symbolOf (alphabet r) c.toNat with
      | none =>
        have := (symbolOf_eq_none r _).mp hs
        simp only [true_iff]
        exact ⟨c, by simp, hc, fun v hv => this v (by rw [hv])⟩
      | some u =>
        have hu := BitVec.eq_of_toNat_eq ((symbolOf_eq_some r _ u).mp hs)
        simp only [Option.map_eq_none_iff, ih, List.mem_cons]
        constructor
        · rintro ⟨d, hd, h⟩
          exact ⟨d, .inr hd, h⟩
        · rintro ⟨d, rfl | hd, h⟩
          · exact absurd hu (h.2 u)
          · exact ⟨d, hd, h⟩

/-- The grouped text of the first `n` symbols parses to those symbols (43_lut.md R168). -/
theorem parseText_groupedText (r : Region) (m : Symbols) (n : Nat) :
    parseText (alphabet r) (groupedText (alphabet r) m n) =
      some ((List.range n).map (symAt m)) := by
  induction n with
  | zero => rfl
  | succ n ih =>
    rw [groupedText, List.range_succ, List.map_append]
    have hlast : parseText (alphabet r) [glyph (alphabet r) (symAt m n)] = some [symAt m n] := by
      rw [parseText, if_neg (glyph_ne_space r _), symbolOf_glyph]
      rfl
    refine parseText_append _ _ _ ?_ hlast
    have hsp : parseText (alphabet r) (if 0 < n ∧ n % 5 = 0 then [0x20] else []) = some [] := by
      split <;> simp [parseText]
    simpa using parseText_append _ _ _ ih hsp

theorem getElem_writeText (old : Text) (cs : List CodePoint) {j : Nat} (hj : j < 32) :
    (writeText old cs)[j] = cs.getD j old[j] := by
  simp [writeText]

/-- The first characters of a written text are the text. -/
theorem take_writeText (old : Text) (cs : List CodePoint) (h : cs.length ≤ 32) :
    (writeText old cs).toList.take cs.length = cs := by
  apply List.ext_getElem
  · simp [h]
  · intro i h1 h2
    simp [getElem_writeText _ _ (show i < 32 by omega), h2]

theorem symAt_loadSyms (m : Symbols) (vs : List Symbol) {i : Nat} (hi : i < 20) :
    symAt (loadSyms m vs) i = vs.getD i (symAt m i) := by
  simp [loadSyms, symAt_ofFn, hi, symAt_of_lt m hi]

end Sys2Proof.Machine
end

