-- ==== Sys2Proof/Laws/PerInstr.lean ====
section
/-! SUPPORT. Statements about every instruction, one lemma per constructor. -/

namespace Sys2Proof.Laws

/-- The encoding of `i` has RSV = 0, and the latch passes its opcode exactly where `i` is NOP or
CLRERR (30_encoding.md R70, R78). -/
def EncodingShape.Statement (i : Instr) : Prop :=
  rsvField (encode i) = 0 ∧ (latchExempt (opField (encode i)) = true ↔ i = .nop ∨ i = .clrerr)

theorem EncodingShape.nop : EncodingShape.Statement .nop := by
  refine ⟨rsvField_assemble .., ?_⟩
  rw [show opField (encode .nop) = 0x00 from opField_assemble ..]
  simp [latchExempt]

theorem EncodingShape.clrerr : EncodingShape.Statement .clrerr := by
  refine ⟨rsvField_assemble .., ?_⟩
  rw [show opField (encode .clrerr) = 0x01 from opField_assemble ..]
  simp [latchExempt]

theorem EncodingShape.clrsym : EncodingShape.Statement .clrsym := by
  refine ⟨rsvField_assemble .., ?_⟩
  rw [show opField (encode .clrsym) = 0x02 from opField_assemble ..]
  simp [latchExempt]

theorem EncodingShape.ext (off : BitVec 7) (wid : BitVec 6) : EncodingShape.Statement (.ext off wid) := by
  refine ⟨rsvField_assemble .., ?_⟩
  rw [show opField (encode (.ext off wid)) = 0x04 from opField_assemble ..]
  simp [latchExempt]

theorem EncodingShape.ins (off : BitVec 7) (wid : BitVec 6) : EncodingShape.Statement (.ins off wid) := by
  refine ⟨rsvField_assemble .., ?_⟩
  rw [show opField (encode (.ins off wid)) = 0x05 from opField_assemble ..]
  simp [latchExempt]

theorem EncodingShape.xciph : EncodingShape.Statement .xciph := by
  refine ⟨rsvField_assemble .., ?_⟩
  rw [show opField (encode .xciph) = 0x08 from opField_assemble ..]
  simp [latchExempt]

theorem EncodingShape.csum : EncodingShape.Statement .csum := by
  refine ⟨rsvField_assemble .., ?_⟩
  rw [show opField (encode .csum) = 0x0C from opField_assemble ..]
  simp [latchExempt]

theorem EncodingShape.cstore : EncodingShape.Statement .cstore := by
  refine ⟨rsvField_assemble .., ?_⟩
  rw [show opField (encode .cstore) = 0x0D from opField_assemble ..]
  simp [latchExempt]

theorem EncodingShape.cver (k : BitVec 3) : EncodingShape.Statement (.cver k) := by
  refine ⟨rsvField_assemble .., ?_⟩
  rw [show opField (encode (.cver k)) = 0x0E from opField_assemble ..]
  simp [latchExempt]

theorem EncodingShape.vkind (k : BitVec 3) : EncodingShape.Statement (.vkind k) := by
  refine ⟨rsvField_assemble .., ?_⟩
  rw [show opField (encode (.vkind k)) = 0x0F from opField_assemble ..]
  simp [latchExempt]

theorem EncodingShape.lutf : EncodingShape.Statement .lutf := by
  refine ⟨rsvField_assemble .., ?_⟩
  rw [show opField (encode .lutf) = 0x10 from opField_assemble ..]
  simp [latchExempt]

theorem EncodingShape.lutr : EncodingShape.Statement .lutr := by
  refine ⟨rsvField_assemble .., ?_⟩
  rw [show opField (encode .lutr) = 0x11 from opField_assemble ..]
  simp [latchExempt]

theorem EncodingShape.fmt : EncodingShape.Statement .fmt := by
  refine ⟨rsvField_assemble .., ?_⟩
  rw [show opField (encode .fmt) = 0x12 from opField_assemble ..]
  simp [latchExempt]

theorem EncodingShape.parse : EncodingShape.Statement .parse := by
  refine ⟨rsvField_assemble .., ?_⟩
  rw [show opField (encode .parse) = 0x13 from opField_assemble ..]
  simp [latchExempt]

end Sys2Proof.Laws
end

