-- ==== Sys2Proof/Laws/Step.lean ====
section
/-! SUPPORT. What a command, a register write and a step can do, said once. -/

namespace Sys2Proof.Machine

/-! ### Legal register values -/

@[simp] theorem legal_setSyms (s : State) (v : Vector (BitVec 6) 20) :
    (s.setSyms v).Legal ↔ s.Legal := by simp [State.Legal]
@[simp] theorem legal_setRegion (s : State) (v : BitVec 1) :
    (s.setRegion v).Legal ↔ s.Legal := by simp [State.Legal]
@[simp] theorem legal_setVal (s : State) (v : BitVec 32) :
    (s.setVal v).Legal ↔ s.Legal := by simp [State.Legal]
@[simp] theorem legal_setSum (s : State) (v : BitVec 8) :
    (s.setSum v).Legal ↔ s.Legal := by simp [State.Legal]
@[simp] theorem legal_setTxt (s : State) (v : Vector (BitVec 21) 32) :
    (s.setTxt v).Legal ↔ s.Legal := by simp [State.Legal]
@[simp] theorem legal_setInputs (s : State) (v : List HostEvent) :
    (s.setInputs v).Legal ↔ s.Legal := by simp [State.Legal]
@[simp] theorem legal_setResp (s : State) (v : Response) :
    (s.setResp v).Legal ↔ s.Legal := by simp [State.Legal]

theorem legal_setLen {s : State} {v : BitVec 5} (h : s.Legal) (hv : 1 ≤ v.toNat ∧ v.toNat ≤ 20) :
    (s.setLen v).Legal := ⟨hv, h.2⟩

theorem legal_setTlen {s : State} {v : BitVec 6} (h : s.Legal) (hv : v.toNat ≤ 32) :
    (s.setTlen v).Legal := ⟨h.1, hv, h.2.2⟩

/-- Latching one of the codes of 60_exceptions.md R211 keeps the registers legal. -/
theorem legal_setErr {s : State} (e : ErrCode) (h : s.Legal) : (s.setErr e.code).Legal :=
  ⟨h.1, h.2.1, e.code_bounds.2⟩

theorem legal_raise {s : State} (e : ErrCode) (h : s.Legal) : (raise e s).Legal := by
  rcases raise_cases e s with ⟨_, h'⟩ | ⟨_, h'⟩ <;> rw [h']
  · exact h
  · exact legal_setErr e h

/-! ### Commands, accesses, steps -/

/-- Every command answers a next state (20_memory.md R52: each command completes). -/
theorem exec_next (i : Instr) (s : State) : ∃ t, exec i s = .next t := by
  cases i <;> exact ⟨_, rfl⟩

/-- Next states are equal where the outcomes are. -/
theorem next_inj {s t : State} :
    (Host.Outcome.next s : Result) = Host.Outcome.next t ↔ s = t :=
  ⟨fun h => by cases h; rfl, fun h => by rw [h]⟩

/-- All a CMD write can do: run the decoded command, or ILLEGAL_CMD (30_encoding.md R78). -/
theorem runCommand_cases (c : Word) (s : State) :
    (∃ i, decode c = .ok i ∧ runCommand c s = exec i s) ∨
    (∃ e, decode c = .error e ∧ runCommand c s = .next (raise .illegalCmd s)) := by
  cases h : decode c with
  | ok i => exact .inl ⟨i, rfl, by rw [runCommand, h]⟩
  | error e =>
    refine .inr ⟨e, rfl, ?_⟩
    cases e with
    | unassignedOpcode => rw [runCommand, h]
    | reservedBits => rw [runCommand, h]
    | illegalFields =>
      simp only [runCommand, h]
      split
      · rename_i hl
        rw [Bool.and_eq_true] at hl
        rw [raise, if_pos hl.1]
      · rfl

/-- All an access that is answered can do. -/
theorem hostAccess_cases {a : Access} {s t : State} (h : hostAccess a s = .next t) :
    (a.offset < 4096 ∧ a.size = 4 ∧ a.offset % 4 = 0) ∧
    ((a.kind = .read ∧ t = s.setResp (.data (readReg s (regAt a.offset)))) ∨
     (∃ v, a.kind = .write v ∧ regAt a.offset = .cmd ∧ runCommand v (s.setResp .done) = .next t) ∨
     (∃ v, a.kind = .write v ∧ regAt a.offset ≠ .cmd ∧
        t = writeReg v (s.setResp .done) (regAt a.offset))) := by
  unfold hostAccess at h
  split at h
  · cases h
  · rename_i hw
    split at h
    · cases h
    · rename_i ha
      refine ⟨⟨by omega, by omega, by omega⟩, ?_⟩
      cases hk : a.kind with
      | read =>
        simp only [hk, next_inj] at h
        exact .inl ⟨rfl, h.symm⟩
      | write v =>
        simp only [hk] at h
        split at h
        · rename_i hr
          exact .inr (.inl ⟨v, rfl, hr, h⟩)
        · rename_i hr
          exact .inr (.inr ⟨v, rfl, hr, (next_inj.mp h).symm⟩)

/-- All a step that is answered can do. -/
theorem step_cases {s t : State} (h : step s = .next t) :
    (s.inputs = [] ∧ t = s) ∨
    (∃ rest, s.inputs = .reset :: rest ∧ t = State.reset.setInputs rest) ∨
    (∃ a rest, s.inputs = .access a :: rest ∧ hostAccess a (s.setInputs rest) = .next t) := by
  unfold step hostStep at h
  split at h
  · rename_i hi
    exact .inl ⟨hi, (next_inj.mp h).symm⟩
  · rename_i rest hi
    exact .inr (.inl ⟨rest, hi, (next_inj.mp h).symm⟩)
  · rename_i a rest hi
    exact .inr (.inr ⟨a, rest, hi, h⟩)

/-- All a write of `LEN` can do (10_state.md R22). -/
theorem writeLen_cases (v : Word) (s : State) :
    ((1 ≤ v.toNat ∧ v.toNat ≤ 20) ∧ writeLen v s = s.setLen (v.setWidth 5)) ∨
    (¬ (1 ≤ v.toNat ∧ v.toNat ≤ 20) ∧ writeLen v s = raise .badParam s) := by
  by_cases h : 1 ≤ v.toNat ∧ v.toNat ≤ 20
  · exact .inl ⟨h, by rw [writeLen, if_pos h]⟩
  · exact .inr ⟨h, by rw [writeLen, if_neg h]⟩

/-- All a write of `TLEN` can do (10_state.md R28). -/
theorem writeTlen_cases (v : Word) (s : State) :
    (v.toNat ≤ 32 ∧ writeTlen v s = s.setTlen (v.setWidth 6)) ∨
    (¬ v.toNat ≤ 32 ∧ writeTlen v s = raise .badParam s) := by
  by_cases h : v.toNat ≤ 32
  · exact .inl ⟨h, by rw [writeTlen, if_pos h]⟩
  · exact .inr ⟨h, by rw [writeTlen, if_neg h]⟩

/-- All a write of `SYM[i]` can do (20_memory.md R55). -/
theorem writeSym_cases (i : Fin 20) (v : Word) (s : State) :
    (v.toNat ≤ 63 ∧ writeSym i v s = s.setSyms (s.sym.set i (v.setWidth 6))) ∨
    (¬ v.toNat ≤ 63 ∧ writeSym i v s = raise .invalidSymbol s) := by
  by_cases h : v.toNat ≤ 63
  · exact .inl ⟨h, by rw [writeSym, if_pos h]⟩
  · exact .inr ⟨h, by rw [writeSym, if_neg h]⟩

/-- Every offset's register is the one the map names (10_state.md R36). -/
theorem regAt_regOffset (r : Reg) : regAt (regOffset r) = r := by
  cases r with
  | sym i => revert i; decide
  | txt i => revert i; decide
  | _ => rfl

/-- CMD stands at offset 0 alone. -/
theorem regAt_eq_cmd (o : Nat) : regAt o = .cmd ↔ o = 0 := by
  constructor
  · intro h
    unfold regAt at h
    split at h
    · rfl
    all_goals first
      | cases h
      | (split at h
         · cases h
         · split at h <;> cases h)
  · rintro rfl
    rfl

/-- The reserved words of the window (10_state.md R36). -/
theorem regAt_reserved {o : Nat} (ha : o % 4 = 0)
    (h : (0x01C ≤ o ∧ o ≤ 0x0FC) ∨ (0x150 ≤ o ∧ o ≤ 0x1FC) ∨ 0x280 ≤ o) :
    regAt o = .reserved := by
  unfold regAt
  split
  all_goals first
    | omega
    | rw [if_neg (by omega), if_neg (by omega)]

end Sys2Proof.Machine
end

