-- ==== Sys2Proof/Tests/Slice0.lean ====
section
/-! SUPPORT. Tests of the model. Expected values come from spec/95_test_vectors.md (V, W, P numbers) and
30_encoding.md R87, or are worked out by hand from the rule named. The `witness_` theorems show states
and operands that meet the hypotheses of the obligation named. -/

namespace Sys2Proof.Tests

open Sys2Proof.Machine

/-! ### Helpers -/

/-- The reset state with the first symbols and LEN set. -/
def withSyms (l : List Nat) (n : Nat) : State :=
  { State.reset with
    sym := Vector.ofFn fun i => BitVec.ofNat 6 (l.getD i.val 0)
    len := BitVec.ofNat 5 n }

/-- The reset state with VAL set. -/
def withVal (v : Nat) : State := State.reset.setVal (BitVec.ofNat 32 v)

/-- The reset state with a text, TLEN and LEN set. -/
def withText (l : List Nat) (n : Nat) : State :=
  { State.reset with
    txt := Vector.ofFn fun i => BitVec.ofNat 21 (l.getD i.val 0)
    tlen := BitVec.ofNat 6 l.length
    len := BitVec.ofNat 5 n }

/-- The reset state with ERR set. -/
def withErr (e : Nat) : State := State.reset.setErr (BitVec.ofNat 4 e)

/-- `s` with a 32-bit write of `v` at `o` as the host's next access. -/
def writing (s : State) (o : Nat) (v : Word) : State :=
  s.setInputs [.access { offset := o, size := 4, kind := .write v }]

/-- `s` with a 32-bit read at `o` as the host's next access. -/
def reading (s : State) (o : Nat) : State :=
  s.setInputs [.access { offset := o, size := 4, kind := .read }]

/-- `s` with an access of any size at `o` as the host's next access. -/
def accessing (s : State) (o size : Nat) : State :=
  s.setInputs [.access { offset := o, size := size, kind := .read }]

/-- 32-bit writes, as offsets and words. -/
def writes (l : List (Nat × Word)) : List HostEvent :=
  l.map fun ov => .access { offset := ov.1, size := 4, kind := .write ov.2 }

/-- The state after an outcome; the reset state where there is none. -/
def after : Result → State
  | .next s => s
  | .fault _ => State.reset
  | .refused _ => State.reset

/-- The first `n` symbols as numbers. -/
def syms (s : State) (n : Nat) : List Nat := (s.sym.toList.take n).map BitVec.toNat

/-- The registers (ERR, VAL, SUM) as numbers. -/
def evs (s : State) : Nat × Nat × Nat := (s.err.toNat, s.val.toNat, s.sum.toNat)

/-- W4's symbols before the cipher (95_test_vectors.md W4). -/
def w4Plain : List Nat := [55, 6, 29, 32, 58]

/-- W1's enciphered symbols (95_test_vectors.md W1). -/
def w1Bytes : List Nat :=
  [4, 37, 51, 36, 63, 61, 51, 10, 44, 39, 3, 0, 52, 21, 48, 55, 9, 45, 59, 55]

/-- W1's symbols before the cipher (95_test_vectors.md W1). -/
def w1Plain : List Nat :=
  [1, 6, 29, 32, 50, 2, 41, 26, 22, 8, 29, 32, 59, 43, 6, 0, 0, 4, 0, 6]

/-! ### WellFormed: each check refuses an ill-formed term (30_encoding.md R72, R73) -/

theorem test_wellFormed_refuses_ext : (Instr.ext 0 33).wellFormed = false := by decide
theorem test_wellFormed_refuses_ins : (Instr.ins 127 63).wellFormed = false := by decide
theorem test_wellFormed_refuses_cver_low : (Instr.cver 0).wellFormed = false := by decide
theorem test_wellFormed_refuses_cver_high : (Instr.cver 5).wellFormed = false := by decide
theorem test_wellFormed_refuses_vkind : (Instr.vkind 4).wellFormed = false := by decide
theorem test_wellFormed_takes_the_bounds :
    (Instr.ext 127 32).wellFormed ∧ (Instr.ins 0 0).wellFormed ∧ (Instr.cver 1).wellFormed ∧
    (Instr.cver 4).wellFormed ∧ (Instr.vkind 0).wellFormed ∧ (Instr.vkind 3).wellFormed := by decide

/-! ### Decoding: every constructor from a word written out (30_encoding.md R75, R87; 95_test_vectors.md 2.10) -/

theorem test_decode_nop : decode 0x00000000 = .ok .nop := by decide
theorem test_decode_clrerr : decode 0x00000001 = .ok .clrerr := by decide
theorem test_decode_clrsym : decode 0x00000002 = .ok .clrsym := by decide
/-- RSV 0, K 000, WID 001111, OFF 0000101, OP 000100. -/
theorem test_decode_ext_bits :
    decode 0b0000000000_000_001111_0000101_000100 = .ok (.ext 5 15) := by decide
theorem test_decode_ext_bounds : decode 0x00041FC4 = .ok (.ext 127 32) := by decide
/-- RSV 0, K 000, WID 000010, OFF 0011000, OP 000101. -/
theorem test_decode_ins_bits :
    decode 0b0000000000_000_000010_0011000_000101 = .ok (.ins 24 2) := by decide
theorem test_decode_ins : decode 0x00004605 = .ok (.ins 24 2) := by decide
theorem test_decode_xciph : decode 0x00000008 = .ok .xciph := by decide
theorem test_decode_csum : decode 0x0000000C = .ok .csum := by decide
theorem test_decode_cstore : decode 0x0000000D = .ok .cstore := by decide
/-- RSV 0, K 100, WID 0, OFF 0, OP 001110. -/
theorem test_decode_cver_bits :
    decode 0b0000000000_100_000000_0000000_001110 = .ok (.cver 4) := by decide
theorem test_decode_vkind : decode 0x0018000F = .ok (.vkind 3) := by decide
theorem test_decode_lutf : decode 0x00000010 = .ok .lutf := by decide
theorem test_decode_lutr : decode 0x00000011 = .ok .lutr := by decide
theorem test_decode_fmt : decode 0x00000012 = .ok .fmt := by decide
theorem test_decode_parse : decode 0x00000013 = .ok .parse := by decide
/-- V131 and bit 31: a reserved bit (30_encoding.md R77). -/
theorem test_decode_reserved_bits :
    decode 0x00400000 = .error .reservedBits ∧ decode 0x80000001 = .error .reservedBits := by decide
theorem test_encode_words :
    encode (.ext 20 4) = 0x00008504 ∧ encode (.ins 5 15) = 0x0001E145 ∧
    encode (.cver 3) = 0x0018000E ∧ encode (.vkind 2) = 0x0010000F := by decide
theorem test_decodeTableWord :
    decodeTableWord 32 0x0001E145 = some (.ins 5 15) ∧ decodeTableWord 32 0x0000000E = none := by
  decide
/-- The very next step after `withFetchWord` runs the command: LUTR on VAL = 0 raises
INVALID_SYMBOL (V102). -/
theorem test_withFetchWord_runs :
    step (State.reset.withFetchWord 32 0x11) =
      .next { State.reset with resp := .done, err := 3 } := rfl

/-! ### One step of each command -/

/-- V1. -/
theorem test_ext_v1 : (after (exec (.ext 5 15) (withSyms [1, 6, 29, 32] 20))).val = 14129 := by decide
/-- V15: a field that spans two symbols. -/
theorem test_ext_v15 : (after (exec (.ext 4 4) (withSyms [3, 48] 2))).val = 15 := by decide
/-- V30. -/
theorem test_ins_v30 :
    syms (after (exec (.ins 5 15) ((withSyms [] 5).setVal 14129))) 5 = [1, 6, 29, 32, 0] := by decide
/-- V32: only the low 4 bits of VAL. -/
theorem test_ins_v32 :
    syms (after (exec (.ins 4 4) ((withSyms [] 2).setVal 0xFFFFFFF5))) 2 = [2, 32] := by decide
/-- V39: all 20 symbols, though LEN is 5. -/
theorem test_clrsym_v39 :
    (after (exec .clrsym (withSyms [5, 5, 5, 5, 5, 9, 9, 9, 9, 9, 9, 9, 9, 9, 9, 9, 9, 9, 9, 9] 5))) =
      withSyms [] 5 := by decide
/-- V48, on the reference table: entries 24..28 are checked ones (41_cipher.md R124). -/
theorem test_xcipher_v48 :
    xcipher (cipherUSReference 0) 5 (withSyms w4Plain 5).sym =
      (withSyms [55, 21, 41, 18, 59] 5).sym := by decide +kernel
/-- V51: W1, decoded; entry 47 is not read. -/
theorem test_xcipher_v51 :
    xcipher (cipherUSReference 0) 20 (withSyms w1Bytes 20).sym = (withSyms w1Plain 20).sym := by
  decide +kernel
/-- V60: the sum wraps. -/
theorem test_csum_v60 :
    evs (after (exec .csum (withSyms (List.replicate 19 63) 20))) = (0, 0, 173) := by decide
/-- W1: the last symbol is left out. -/
theorem test_csum_w1 : evs (after (exec .csum (withSyms w1Plain 20))) = (0, 0, 134) := by decide
/-- V65: CSTORE does not recompute SUM. -/
theorem test_cstore_v65 :
    syms (after (exec .cstore ((withSyms [1, 63] 2).setSum 240))) 2 = [1, 48] := by decide
/-- V62: LEN = 1, SUM = 0. -/
theorem test_cstore_v62 : syms (after (exec .cstore (withSyms [42] 1))) 1 = [32] := by decide
/-- V70: bit 3 is not compared. -/
theorem test_cver_v70 :
    evs (after (exec (.cver 3)
      ((withSyms [3, 6, 29, 32, 0, 0, 0, 16, 1, 0, 0, 0, 0, 32, 15] 15).setSum 119))) =
      (0, 0, 119) := by decide
/-- V71. -/
theorem test_cver_v71 :
    evs (after (exec (.cver 4)
      ((withSyms [3, 6, 29, 32, 0, 0, 0, 16, 1, 0, 0, 0, 0, 32, 15] 15).setSum 119))) =
      (6, 0, 119) := by decide
/-- V80: the first stream bit is the least significant. -/
theorem test_vkind_v80 : evs (after (exec (.vkind 1) (withSyms [4] 1))) = (0, 0, 0) := by decide
/-- V76. -/
theorem test_vkind_v76 : evs (after (exec (.vkind 2) (withSyms w4Plain 5))) = (5, 0, 0) := by decide
/-- V93. -/
theorem test_lutf_v93 : evs (after (exec .lutf (withVal 61))) = (0, 0x2190, 0) := rfl
/-- V96. -/
theorem test_lutf_v96 : evs (after (exec .lutf (withVal 64))) = (3, 64, 0) := rfl
/-- V98: no case folding. -/
theorem test_lutr_v98 : evs (after (exec .lutr (withVal 0x62))) = (0, 26, 0) := rfl
/-- V100: a space is never a character of the alphabet. -/
theorem test_lutr_v100 : evs (after (exec .lutr (withVal 0x20))) = (3, 0x20, 0) := rfl
/-- The text of W4: no space in 5 symbols. -/
theorem test_fmt_w4 :
    after (exec .fmt (withSyms [55, 21, 41, 18, 59] 5)) =
      { withText [0x36, 0x25CF, 0x73, 0x57, 0x2191] 5 with
        sym := (withSyms [55, 21, 41, 18, 59] 5).sym } := rfl
/-- V109: W1's text, its groups split by spaces, TLEN = 23. -/
theorem test_fmt_v109 :
    after (exec .fmt (withSyms w1Bytes 20)) =
      { withText [0x48, 0x7E, 0x32, 0x3A, 0x40, 0x20, 0x2190, 0x32, 0x2666, 0x79, 0x71, 0x20,
          0x47, 0x42, 0x33, 0x25CF, 0x28, 0x20, 0x36, 0x2665, 0x3F, 0x2191, 0x36] 20 with
        sym := (withSyms w1Bytes 20).sym } := rfl
/-- V118. -/
theorem test_parse_v118 :
    syms (after (exec .parse (withText [0x36, 0x25CF, 0x73, 0x57, 0x2191] 5))) 5 =
      [55, 21, 41, 18, 59] := rfl
/-- V117: an empty text. -/
theorem test_parse_v117 : evs (after (exec .parse (withText [] 5))) = (4, 0, 0) := rfl

/-- V119: a tab is not a space, whatever the open entries are. -/
theorem test_parse_v119 :
    evs (after (exec .parse (withText [0x36, 0x25CF, 0x73, 0x09, 0x57, 0x2191] 5))) = (3, 0, 0) := rfl
/-- The printable characters: each bound of 7-bit text, and the characters of R152's table. -/
theorem test_printable :
    [0x09, 0x0A, 0x20, 0x7F, 0xA0, 0x3000, 0xD800, 0x1FFFE, 0x110000].all (fun n => !isPrintable n) ∧
    [0x21, 0x7E, 0xA1, 0x3042, 0x25CF, 0x2190, 0x10FFFD].all isPrintable := by decide

/-! ### The latch and the register window -/

/-- V136: a malformed CLRERR does not clear the latch. -/
theorem test_v136 : (after (step (writing (withErr 1) 0 0x00000041))).err = 1 := by decide
/-- V138. -/
theorem test_v138 :
    (after (step (writing (withErr 2) 0 0x00000000))).err = 2 ∧
    (after (step (writing (withErr 2) 0 0x00000001))).err = 0 := by decide
/-- V139: LUTF is ignored under the latch. -/
theorem test_v139 : evs (after (step (writing ((withErr 7).setVal 9) 0 0x10))) = (7, 9, 0) := rfl
/-- V150, V152. -/
theorem test_v150 :
    (after (step (writing State.reset 0x008 0))).err = 7 ∧
    (after (step (writing State.reset 0x008 0))).len = 20 ∧
    (after (step (writing State.reset 0x008 1))).len = 1 := by decide
/-- V155 and V158: the bits above a register's width are dropped. -/
theorem test_v155_v158 :
    (after (step (writing State.reset 0x00C 0xFFFFFFFF))).region = 1 ∧
    (after (step (writing State.reset 0x200 0xFFFFFFFF))).txt[0] = 0x1FFFFF := by decide
/-- V156, V157. -/
theorem test_v156 :
    (after (step (writing State.reset 0x100 64))).err = 3 ∧
    (after (step (writing State.reset 0x100 63))).sym[0] = 63 := by decide
/-- V159, V160, V163: read-only and reserved words ignore a write. -/
theorem test_v159 :
    step (writing State.reset 0x014 5) = .next (State.reset.setResp .done) ∧
    step (writing State.reset 0x004 3) = .next (State.reset.setResp .done) ∧
    step (writing State.reset 0x3FC 7) = .next (State.reset.setResp .done) := ⟨rfl, rfl, rfl⟩
/-- V165: a 16-bit access, and an access at offset 2. -/
theorem test_v165 :
    step (accessing State.reset 0x100 2) = .refused .busError ∧
    step (accessing State.reset 0x002 4) = .refused .busError := ⟨rfl, rfl⟩

/-! ### Host programs (30_encoding.md R86; 95_test_vectors.md P1, P2) -/

/-- P1's first lines: `LDTXT` of one character writes TXT[0], then TLEN. -/
theorem test_ldtxt : pseudoLdtxt [0x48] =
    [.access { offset := 0x200, size := 4, kind := .write 0x48 },
     .access { offset := 0x018, size := 4, kind := .write 1 }] := by decide
/-- P2's `INSV 52, 8, 2` and `SEAL`. -/
theorem test_insv_seal : pseudoInsv 52 8 2 ++ pseudoSeal =
    [.access { offset := 0x010, size := 4, kind := .write 2 },
     .access { offset := 0x000, size := 4, kind := .write 0x00010D05 },
     .access { offset := 0x000, size := 4, kind := .write 0x0000000C },
     .access { offset := 0x000, size := 4, kind := .write 0x0000000D }] := by decide
/-- P3, part B, for the mask 1: the key field is 1 and the inserted mask is its reversal, 2. -/
theorem test_encode_memory_p3 :
    hostEncodeMemoryMask 0 14129 0 1 true =
      hostWrite .region 0 :: writes
      [(0x008, 5), (0x000, 0x00000002), (0x010, 1), (0x000, 0x00006005), (0x010, 3),
       (0x000, 0x000040C5), (0x010, 0x3731), (0x000, 0x0001E145), (0x010, 0), (0x000, 0x00008505),
       (0x010, 2), (0x000, 0x00004605), (0x000, 0x0000000C), (0x000, 0x0000000D),
       (0x000, 0x00000008), (0x000, 0x00000012)] := by decide +kernel
/-- P2: the RingSecret encode of the mask 0x0204000000800000, access by access. -/
theorem test_encode_ring_p2 :
    hostEncodeRing 0 0 14129 0x0204000000800000 true =
      hostWrite .region 0 :: writes
      ([(0x008, 15), (0x000, 0x00000002), (0x010, 0), (0x000, 0x00006005), (0x010, 2),
        (0x000, 0x000040C5), (0x010, 0x3731), (0x000, 0x0001E145), (0x010, 0), (0x000, 0x00010505),
        (0x010, 0), (0x000, 0x00010705), (0x010, 128), (0x000, 0x00010905)] ++
       [(0x010, 0), (0x000, 0x00010B05), (0x010, 0), (0x000, 0x00010F05), (0x010, 0),
        (0x000, 0x00011105), (0x010, 4), (0x000, 0x00011305), (0x010, 2), (0x000, 0x00010D05),
        (0x000, 0x0000000C), (0x000, 0x0000000D), (0x000, 0x00000008), (0x000, 0x00000012)]) := by decide +kernel
/-- W2: the ring mask of its plain symbols, mask byte 8 at stream bit 52 (90_conflicts.md C10). -/
theorem test_ring_mask_w2 :
    ringMask (withSyms [3, 6, 29, 32, 0, 0, 0, 16, 1, 0, 0, 0, 0, 32, 7] 15).sym =
      0x0204000000800000 := by decide +kernel
/-- R188: a byte that SYM refuses latches an error, and the host stops at STATUS with no field read. -/
theorem test_decode_stops_at_status :
    hostDecodeBytes .memory 0 [55, 21, 41, 18, 64] State.reset =
      .stopped { withErr 3 with
        sym := (withSyms [55, 21, 41, 18] 5).sym, len := 5, resp := .data 3 } (.scu 3) := by
  decide +kernel
/-- R231: the host checks the number of bytes before it writes LEN. -/
theorem test_decode_checks_the_length :
    hostDecodeBytes .ring 0 [55, 21, 41, 18, 59] State.reset = .stopped State.reset .malformedLength := by
  decide +kernel
/-- R188: where STATUS is 0 the host reads the fields (W4 plain, from the field reads on). -/
theorem test_field_reads_w4 :
    (serve (fieldReads .memory) (withSyms w4Plain 5)).map Prod.snd = some [3, 3, 14129, 0] := by
  decide +kernel

/-! ### Witnesses: the hypotheses of each obligation are met together -/

/-- A state with ERR = 0 and legal registers: W4's symbols, LEN = 5. -/
theorem witness_legal_and_clear :
    (withSyms w4Plain 5).Legal ∧ (withSyms w4Plain 5).err = 0 := by
  unfold State.Legal; decide

theorem witness_StepKeepsLegalRegisters :
    (writing (withSyms w4Plain 5) 0x008 20).Legal ∧
    step (writing (withSyms w4Plain 5) 0x008 20) =
      .next ((((withSyms w4Plain 5).setResp .done)).setLen 20) := by
  refine ⟨?_, rfl⟩
  unfold State.Legal; decide

theorem witness_RunsOfServableEventsNeverStop :
    State.reset.Legal ∧
    (∀ e ∈ [hostCommand .fmt, hostRead (.txt 31), HostEvent.reset], e.Servable) := by
  refine ⟨by unfold State.Legal; decide, fun e he => ?_⟩
  simp only [List.mem_cons, List.not_mem_nil, or_false] at he
  rcases he with rfl | rfl | rfl
  · exact ⟨by decide, by decide, by decide⟩
  · exact ⟨by decide, by decide, by decide⟩
  · exact trivial

theorem witness_DecodeUndoesEncode : (Instr.ext 127 32).wellFormed = true := by decide
theorem witness_DecodedWordIsItsEncoding : decode 0x0018000F = .ok (.vkind 3) := by decide

theorem witness_StepRunsTheDecodedCommand :
    NextIsWrite (writing State.reset 0x000 0x00041FC4) 0x000 0x00041FC4 [] ∧
    decode 0x00041FC4 = .ok (.ext 127 32) := ⟨rfl, by decide⟩

/-- V24, V25, V72, V73, V82, V130..V135 and boundary opcodes: every clause of
`Obligations.IllegalWordsRaiseIllegalCmd`, with the state it gives from reset. -/
theorem witness_IllegalWordsRaiseIllegalCmd :
    (∀ c, NextIsWrite (writing State.reset 0x000 c) 0x000 c []) ∧
    (([0x00000003, 0x0000000B, 0x00000014, 0x0000003F, 0x00400000, 0x00000040, 0x00002013,
        0x00080002, 0x0009E144, 0x00042004, 0x0000404E, 0x0020004E, 0x0000000E, 0x0028000E,
        0x0020000F] : List Word).map
      fun c => (after (step (writing State.reset 0x000 c))).err.toNat) = List.replicate 15 1 :=
  ⟨fun _ => rfl, by decide +kernel⟩

/-- The words of the last theorem meet the clauses of the obligation, one after another. -/
theorem witness_illegal_clauses :
    (0x03 % 64 ∈ [0x03, 0x06, 0x07, 0x09, 0x0A, 0x0B]) ∧ 0x14 ≤ 0x00000014 % 64 ∧
    0x00400000 / 4194304 ≠ 0 ∧
    (0x00000040 % 64 = 0x00 ∧ 0x00000040 / 64 % 128 ≠ 0) ∧
    (0x00002013 % 64 = 0x13 ∧ 0x00002013 / 8192 % 64 ≠ 0) ∧
    (0x00080002 % 64 = 0x02 ∧ 0x00080002 / 524288 % 8 ≠ 0) ∧
    (0x0009E144 % 64 = 0x04 ∧ 0x0009E144 / 524288 % 8 ≠ 0) ∧
    (0x00042004 % 64 = 0x04 ∧ 0x00042004 / 8192 % 64 = 33) ∧
    (0x0000404E % 64 = 0x0E ∧ 0x0000404E / 8192 % 64 ≠ 0) ∧
    (0x0020004E % 64 = 0x0E ∧ 0x0020004E / 64 % 128 ≠ 0) ∧
    (0x0000000E % 64 = 0x0E ∧ 0x0000000E / 524288 % 8 = 0) ∧
    (0x0028000E % 64 = 0x0E ∧ 0x0028000E / 524288 % 8 = 5) ∧
    (0x0020000F % 64 = 0x0F ∧ 0x0020000F / 524288 % 8 = 4) := by decide

/-- V132: a NOP with OFF = 1. -/
theorem witness_NopDoesNothing :
    NextIsWrite (writing State.reset 0x000 0x00000040) 0x000 0x00000040 [] ∧
    (0x00000040 : Word).toNat % 64 = 0 ∧ (0x00000040 : Word) ≠ 0 := ⟨rfl, by decide, by decide⟩

/-- V136: a CLRERR with OFF = 1, under a latch; and a command that is no CLRERR, under a latch. -/
theorem witness_ClrerrClearsTheLatch :
    NextIsWrite (writing (withErr 1) 0x000 0x00000041) 0x000 0x00000041 [] ∧
    (0x00000041 : Word).toNat % 64 = 1 ∧ (0x00000041 : Word) ≠ 1 ∧
    (withErr 1).err ≠ 0 ∧ Instr.csum ≠ .clrerr := ⟨rfl, by decide, by decide, by decide, by decide⟩

theorem witness_LatchedCommandsAreIgnored :
    (withErr 7).err ≠ 0 ∧ Instr.fmt ≠ .nop ∧ Instr.fmt ≠ .clrerr := by decide

/-- V162: a write under the latch. -/
theorem witness_LatchHoldsUntilClrerrOrReset :
    (writing (withErr 7) 0x008 5).err ≠ 0 ∧
    step (writing (withErr 7) 0x008 5) = .next (((withErr 7).setResp .done).setLen 5) ∧
    (∀ rest, (writing (withErr 7) 0x008 5).inputs ≠ .reset :: rest) ∧
    (∀ rest, ¬ NextIsWrite (writing (withErr 7) 0x008 5) 0x000 0x00000001 rest) := by
  refine ⟨by decide, rfl, fun rest h => ?_, fun rest h => ?_⟩
  · cases h
  · cases h

/-- V150. -/
theorem witness_ErrorsChangeOnlyTheLatch :
    step (writing State.reset 0x008 0) = .next ((State.reset.setResp .done).setErr 7) ∧
    ((State.reset.setResp .done).setErr 7).err ≠ (writing State.reset 0x008 0).err ∧
    ((State.reset.setResp .done).setErr 7).err ≠ 0 := ⟨rfl, by decide, by decide⟩

/-- V20, V22 and V23; the widest field; VKIND at LEN = 1. -/
theorem witness_RangeChecksStreamAccess :
    (State.reset.err = 0 ∧ (2 : BitVec 6).toNat ≤ 32 ∧
      6 * State.reset.len.toNat < (119 : BitVec 7).toNat + (2 : BitVec 6).toNat) ∧
    (6 * (withSyms [] 5).len.toNat < (25 : BitVec 7).toNat + (6 : BitVec 6).toNat) ∧
    (32 : BitVec 6).toNat ≤ 32 ∧
    exec (.vkind 1) (withSyms [4] 1) = .next (withSyms [4] 1) :=
  ⟨by decide, by decide, by decide, rfl⟩

/-- V18: a field of 32 bits that ends at the last stream bit; V19: no bit at the end. -/
theorem witness_field_hypotheses :
    State.reset.Legal ∧ State.reset.err = 0 ∧
    ((32 : BitVec 6).toNat ≤ 32 ∧
      (88 : BitVec 7).toNat + (32 : BitVec 6).toNat ≤ 6 * State.reset.len.toNat) ∧
    ((0 : BitVec 6).toNat ≤ 32 ∧
      (120 : BitVec 7).toNat + (0 : BitVec 6).toNat ≤ 6 * State.reset.len.toNat) := by
  unfold State.Legal; decide

theorem witness_ExtReadsTheFieldBits :
    (withSyms [3, 48] 2).err = 0 ∧ (4 : BitVec 6).toNat ≤ 32 ∧
    (4 : BitVec 7).toNat + (4 : BitVec 6).toNat ≤ 6 * (withSyms [3, 48] 2).len.toNat := by decide

theorem witness_InsWritesExactlyTheField :
    (withSyms [63, 63] 2).Legal ∧ (withSyms [63, 63] 2).err = 0 ∧ (4 : BitVec 6).toNat ≤ 32 ∧
    (8 : BitVec 7).toNat + (4 : BitVec 6).toNat ≤ 6 * (withSyms [63, 63] 2).len.toNat := by
  unfold State.Legal; decide

theorem witness_InsThenExtReadsBack :
    (withSyms [21] 1).Legal ∧ (withSyms [21] 1).err = 0 ∧ (6 : BitVec 6).toNat ≤ 32 ∧
    (0 : BitVec 7).toNat + (6 : BitVec 6).toNat ≤ 6 * (withSyms [21] 1).len.toNat := by
  unfold State.Legal; decide

theorem witness_ExtThenInsRestores :
    (withSyms [1, 6, 29, 32] 4).Legal ∧ (withSyms [1, 6, 29, 32] 4).err = 0 ∧
    (15 : BitVec 6).toNat ≤ 32 ∧
    (5 : BitVec 7).toNat + (15 : BitVec 6).toNat ≤ 6 * (withSyms [1, 6, 29, 32] 4).len.toNat := by
  unfold State.Legal; decide

/-- Two fields that touch: the key field (0, 3) and the discriminator (3, 2). -/
theorem witness_DisjointInsertsCommute :
    State.reset.Legal ∧ State.reset.err = 0 ∧ (3 : BitVec 6).toNat ≤ 32 ∧ (2 : BitVec 6).toNat ≤ 32 ∧
    (0 : BitVec 7).toNat + (3 : BitVec 6).toNat ≤ 6 * State.reset.len.toNat ∧
    (3 : BitVec 7).toNat + (2 : BitVec 6).toNat ≤ 6 * State.reset.len.toNat ∧
    (0 : BitVec 7).toNat + (3 : BitVec 6).toNat ≤ (3 : BitVec 7).toNat := by
  unfold State.Legal; decide

/-- The law check below V26: V15 in two parts. -/
theorem witness_ExtSplitsAtAnyBit :
    (withSyms [3, 48] 2).err = 0 ∧ (4 : BitVec 6).toNat ≤ 32 ∧
    (4 : BitVec 6).toNat = (2 : BitVec 6).toNat + (2 : BitVec 6).toNat ∧
    (6 : BitVec 7).toNat = (4 : BitVec 7).toNat + (2 : BitVec 6).toNat ∧
    (4 : BitVec 7).toNat + (4 : BitVec 6).toNat ≤ 6 * (withSyms [3, 48] 2).len.toNat := by decide

/-- The hypothesis `err = 0` of CLRSYM, CSUM, XCIPH and the rest is met right after reset. -/
theorem witness_ClrsymClearsEverySymbol : State.reset.err = 0 := by decide
theorem witness_XciphIsAnInvolution : (withSyms [56] 20).err = 0 := by decide
theorem witness_CsumSumsAllButTheLast : (withSyms w1Plain 20).err = 0 := by decide

theorem witness_KeyFieldReversesTheEngineKey :
    (withSyms w4Plain 5).Legal ∧ (withSyms w4Plain 5).err = 0 := witness_legal_and_clear

/-- LEN = 20 with key 7 (V54) and LEN = 1 (V45). -/
theorem witness_XciphEnciphersTheActiveSymbols :
    ((withSyms [56] 20).Legal ∧ (withSyms [56] 20).err = 0) ∧
    ((withSyms [0] 1).Legal ∧ (withSyms [0] 1).err = 0) := by
  unfold State.Legal; decide

/-- Two tables that differ outside the window of key 0 and n = 2, and in the top bits of entry 0. -/
theorem witness_XciphReadsOnlyItsWindow :
    (2 : Nat) ≤ 20 ∧
    (∀ j : Fin 48, 4 * ((withSyms [1] 2).sym[0].toNat / 8) < j.val →
      j.val < 4 * ((withSyms [1] 2).sym[0].toNat / 8) + 2 →
      (fun i : Fin 48 => if i.val = 2 then (9 : Symbol) else 0) j =
        (fun i : Fin 48 => if i.val = 0 then (8 : Symbol) else 0) j) ∧
    (∀ j : Fin 48, j.val = 4 * ((withSyms [1] 2).sym[0].toNat / 8) →
      ((fun i : Fin 48 => if i.val = 2 then (9 : Symbol) else 0) j).toNat % 8 =
        ((fun i : Fin 48 => if i.val = 0 then (8 : Symbol) else 0) j).toNat % 8) := by decide

theorem witness_CstoreStoresTheNibble :
    (withSyms [42] 1).Legal ∧ (withSyms [42] 1).err = 0 := by unfold State.Legal; decide

/-- V63 and V64. -/
theorem witness_StoredNibbleIsTheSumOfAllSymbols :
    (withSyms [55, 6, 29, 32, 48] 5).Legal ∧ (withSyms [55, 6, 29, 32, 48] 5).err = 0 ∧
    ((withSyms [55, 6, 29, 32, 48] 5).sym.toList.getD
      ((withSyms [55, 6, 29, 32, 48] 5).len.toNat - 1) 0).toNat % 16 = 0 := by
  unfold State.Legal; decide

/-- V70's state: width 3 agrees, width 4 does not; and both ends of the range of `w`. -/
theorem witness_CverComparesTheLowBits :
    ((withSyms [8, 15] 2).setSum 119).Legal ∧ ((withSyms [8, 15] 2).setSum 119).err = 0 ∧
    (1 ≤ (1 : BitVec 3).toNat ∧ (1 : BitVec 3).toNat ≤ 4 ∧ 119 % 2 ^ 1 = 15 % 2 ^ 1) ∧
    (1 ≤ (4 : BitVec 3).toNat ∧ (4 : BitVec 3).toNat ≤ 4 ∧
      ((withSyms [8, 15] 2).setSum 119).sum.toNat % 2 ^ 4 ≠
        (((withSyms [8, 15] 2).setSum 119).sym.toList.getD
          (((withSyms [8, 15] 2).setSum 119).len.toNat - 1) 0).toNat % 2 ^ 4) := by
  unfold State.Legal; decide

/-- V77 (k = 3 passes) and V74 (k = 0 does not). -/
theorem witness_VkindChecksTheDiscriminator :
    (withSyms w4Plain 5).err = 0 ∧ (3 : BitVec 3).toNat ≤ 3 ∧
    (withSyms w4Plain 5).sym[0].toNat / 4 % 2 + 2 * ((withSyms w4Plain 5).sym[0].toNat / 2 % 2) =
      (3 : BitVec 3).toNat ∧
    (withSyms w4Plain 5).sym[0].toNat / 4 % 2 + 2 * ((withSyms w4Plain 5).sym[0].toNat / 2 % 2) ≠
      (0 : BitVec 3).toNat := by decide

/-- W4 with its last symbol 58 changed to 57. -/
theorem witness_LastSymbolChangeIsDetected :
    (withSyms w4Plain 5).len.toNat - 1 < 20 ∧ (withSyms w4Plain 5).Legal ∧
    (withSyms w4Plain 5).err = 0 ∧
    exec .csum (withSyms w4Plain 5) = .next ((withSyms w4Plain 5).setSum 122) ∧
    exec (.cver 3) ((withSyms w4Plain 5).setSum 122) = .next ((withSyms w4Plain 5).setSum 122) ∧
    (57 : Symbol).toNat % 2 ^ 3 ≠ (withSyms w4Plain 5).sym[4].toNat % 2 ^ 3 := by
  refine ⟨by decide, by unfold State.Legal; decide, by decide, rfl, rfl, by decide⟩

/-- V94 (the largest symbol value) and V96 (the smallest number above it). -/
theorem witness_LutfGivesTheCharacter :
    (withVal 63).err = 0 ∧ (withVal 63).val.toNat ≤ 63 ∧ 63 < (withVal 64).val.toNat := by decide

/-- V95, and V102: U+0000 is a character of no alphabet. -/
theorem witness_LutrGivesTheSymbol :
    (withVal 0x2190).err = 0 ∧
    ((if (withVal 0x2190).region = 0 then alphaUS else alphaJP) 61).toNat =
      (withVal 0x2190).val.toNat ∧
    (∀ v : Fin 64, ((if (withVal 0).region = 0 then alphaUS else alphaJP) v).toNat ≠
      (withVal 0).val.toNat) := by
  refine ⟨by decide, rfl, fun v h => ?_⟩
  exact glyph_ne_zero .us (BitVec.ofFin v) (BitVec.eq_of_toNat_eq h)

theorem witness_LutfThenLutrReturns :
    (withVal 63).err = 0 ∧ (withVal 63).val.toNat ≤ 63 := by decide

/-- Some two symbol values have the same character only where they are one. -/
theorem witness_AlphabetsAreDistinctAndSpaceless : alphabet .us 63 = alphabet .us 63 := rfl

/-- LEN = 5, 15 and 20. -/
theorem witness_FmtLengthFormula :
    ((withSyms [] 5).Legal ∧ (withSyms [] 5).err = 0 ∧ (withSyms [] 5).len.toNat = 5) ∧
    ((withSyms [] 15).Legal ∧ (withSyms [] 15).err = 0 ∧ (withSyms [] 15).len.toNat = 15) ∧
    ((withSyms [] 20).Legal ∧ (withSyms [] 20).err = 0 ∧ (withSyms [] 20).len.toNat = 20) := by
  unfold State.Legal; decide

/-- LEN = 6: symbol 5 is the first that a space stands before; TXT[7] is the first register kept. -/
theorem witness_FmtWritesGroupedText :
    (withSyms [0, 1, 2, 3, 4, 5] 6).Legal ∧ (withSyms [0, 1, 2, 3, 4, 5] 6).err = 0 ∧
    ((5 : Fin 20).val < (withSyms [0, 1, 2, 3, 4, 5] 6).len.toNat ∧ 0 < (5 : Fin 20).val ∧
      (5 : Fin 20).val % 5 = 0) ∧ 6 + (6 - 1) / 5 ≤ (7 : Fin 32).val := by
  unfold State.Legal; decide

theorem witness_FmtAndParseRoundTrip :
    (withSyms w1Bytes 20).Legal ∧ (withSyms w1Bytes 20).err = 0 := by unfold State.Legal; decide

/-- V118. -/
theorem witness_ParseReadsTheSymbols :
    (withText [0x36, 0x25CF, 0x73, 0x57, 0x2191] 5).err = 0 ∧
    ([55, 21, 41, 18, 59] : List (Fin 64)).map
      (if (withText [0x36, 0x25CF, 0x73, 0x57, 0x2191] 5).region = 0 then alphaUS else alphaJP) =
      ((withText [0x36, 0x25CF, 0x73, 0x57, 0x2191] 5).txt.toList.take
        (withText [0x36, 0x25CF, 0x73, 0x57, 0x2191] 5).tlen.toNat).filter (fun c => c ≠ 0x20) ∧
    ([55, 21, 41, 18, 59] : List (Fin 64)).length =
      (withText [0x36, 0x25CF, 0x73, 0x57, 0x2191] 5).len.toNat := ⟨by decide, rfl, by decide⟩

/-- A text of U+0000 alone; and an empty text with LEN = 5 (V117). -/
theorem witness_ParseRejectsBadText :
    ((withText [0] 5).err = 0 ∧
      ∃ c ∈ (withText [0] 5).txt.toList.take (withText [0] 5).tlen.toNat, c ≠ 0x20 ∧
        ∀ v : Fin 64, (if (withText [0] 5).region = 0 then alphaUS else alphaJP) v ≠ c) ∧
    ((withText [] 5).err = 0 ∧
      ([] : List (Fin 64)).map (if (withText [] 5).region = 0 then alphaUS else alphaJP) =
        ((withText [] 5).txt.toList.take (withText [] 5).tlen.toNat).filter (fun c => c ≠ 0x20) ∧
      ([] : List (Fin 64)).length ≠ (withText [] 5).len.toNat) := by
  refine ⟨⟨by decide, 0, by decide, by decide, fun v => ?_⟩, by decide, rfl, by decide⟩
  exact glyph_ne_zero .us (BitVec.ofFin v)

/-- V119's tab, and both ends of the first range. -/
theorem witness_OtherWhitespaceIsRejected :
    (withVal 0x1F).err = 0 ∧ (withVal 0x1F).val.toNat = 0x1F ∧ (withVal 0).val.toNat = 0 ∧
    (withText [0x36, 0x25CF, 0x73, 0x09, 0x57, 0x2191] 5).err = 0 ∧
    (∃ d ∈ (withText [0x36, 0x25CF, 0x73, 0x09, 0x57, 0x2191] 5).txt.toList.take
      (withText [0x36, 0x25CF, 0x73, 0x09, 0x57, 0x2191] 5).tlen.toNat, d.toNat = 0x09) := by
  refine ⟨by decide, by decide, by decide, by decide, 0x09, by decide, by decide⟩

/-- V31, V60, V90 and a FMT: commands that change SYM, SUM, VAL and TXT. -/
theorem witness_CommandsWriteOnlyTheirRegisters :
    (∃ t, exec (.ins 4 4) (withSyms [63, 63] 2) = .next t ∧ t.sym ≠ (withSyms [63, 63] 2).sym) ∧
    (∃ t, exec .csum (withSyms w1Plain 20) = .next t ∧ t.sum ≠ (withSyms w1Plain 20).sum) ∧
    (∃ t, exec .lutf (withVal 0) = .next t ∧ t.val ≠ (withVal 0).val) ∧
    (∃ t, exec .fmt (withSyms [63] 1) = .next t ∧ t.tlen ≠ (withSyms [63] 1).tlen) := by
  refine ⟨⟨_, rfl, by decide⟩, ⟨_, rfl, by decide⟩, ⟨_, rfl, fun h => ?_⟩, ⟨_, rfl, fun h => ?_⟩⟩
  · exact absurd (congrArg BitVec.toNat h) (by change ¬ (0x42 = 0); decide)
  · exact absurd (congrArg BitVec.toNat h) (by change ¬ (1 = 0); decide)

/-- V53's shape: symbol 3 with LEN = 3. -/
theorem witness_SymbolsPastLenAreKept :
    (withSyms [8, 0, 0, 9] 3).Legal ∧
    exec .csum (withSyms [8, 0, 0, 9] 3) = .next ((withSyms [8, 0, 0, 9] 3).setSum 8) ∧
    Instr.csum ≠ .clrsym ∧ (withSyms [8, 0, 0, 9] 3).len.toNat ≤ (3 : Fin 20).val := by
  refine ⟨by unfold State.Legal; decide, rfl, by decide, by decide⟩

theorem witness_RegionIsReadByTableCommandsOnly :
    Instr.csum ≠ .xciph ∧ Instr.csum ≠ .lutf ∧ Instr.csum ≠ .lutr ∧ Instr.csum ≠ .fmt ∧
    Instr.csum ≠ .parse ∧
    exec .csum (withSyms w4Plain 5) = .next ((withSyms w4Plain 5).setSum 122) := by
  refine ⟨by decide, by decide, by decide, by decide, by decide, rfl⟩

/-- Writes of LEN at 0, 1, 20, 21 and of TLEN at 32, 33 (V150..V154). -/
theorem witness_LengthWritesAreChecked :
    (∀ v ∈ ([0, 1, 20, 21] : List Word), NextIsWrite (writing State.reset 0x008 v) 0x008 v []) ∧
    (∀ v ∈ ([0, 32, 33] : List Word), NextIsWrite (writing State.reset 0x018 v) 0x018 v []) :=
  ⟨fun _ _ => rfl, fun _ _ => rfl⟩

/-- V156, V157, and the last symbol. -/
theorem witness_SymWriteIsChecked :
    NextIsWrite (writing State.reset 0x100 64) (0x100 + 4 * (0 : Fin 20).val) 64 [] ∧
    NextIsWrite (writing State.reset 0x14C 63) (0x100 + 4 * (19 : Fin 20).val) 63 [] := ⟨rfl, rfl⟩

theorem witness_UncheckedWritesStore :
    NextIsWrite (writing State.reset 0x00C 0xFFFFFFFF) 0x00C 0xFFFFFFFF [] ∧
    NextIsWrite (writing State.reset 0x010 14129) 0x010 14129 [] ∧
    NextIsWrite (writing State.reset 0x27C 0x48) (0x200 + 4 * (31 : Fin 32).val) 0x48 [] :=
  ⟨rfl, rfl, rfl⟩

/-- Every end of the reserved ranges, and the read-only registers. -/
theorem witness_ReadOnlyAndReservedWords :
    (∀ o ∈ [0x004, 0x014, 0x01C, 0x0FC, 0x150, 0x1FC, 0x280, 0xFFC], o % 4 = 0 ∧
      (o = 0x004 ∨ o = 0x014 ∨ (0x01C ≤ o ∧ o ≤ 0x0FC) ∨ (0x150 ≤ o ∧ o ≤ 0x1FC) ∨
        (0x280 ≤ o ∧ o ≤ 0xFFC))) ∧
    (∀ o, NextIsWrite (writing State.reset o 7) o 7 []) ∧
    (∀ o, NextIsRead (reading State.reset o) o []) := ⟨by decide, fun _ => rfl, fun _ => rfl⟩

theorem witness_ReadsAnswerTheRegisters :
    NextIsRead (reading (withErr 7) 0x004) 0x004 [] ∧
    NextIsRead (reading State.reset 0x008) 0x008 [] ∧
    NextIsRead (reading State.reset 0x00C) 0x00C [] ∧
    NextIsRead (reading State.reset 0x010) 0x010 [] ∧
    NextIsRead (reading State.reset 0x014) 0x014 [] ∧
    NextIsRead (reading State.reset 0x018) 0x018 [] ∧
    NextIsRead (reading State.reset 0x14C) (0x100 + 4 * (19 : Fin 20).val) [] ∧
    NextIsRead (reading State.reset 0x27C) (0x200 + 4 * (31 : Fin 32).val) [] :=
  ⟨rfl, rfl, rfl, rfl, rfl, rfl, rfl, rfl⟩

theorem witness_ReadsHaveNoSideEffects :
    NextIsRead (reading State.reset 0xFFC) 0xFFC [] ∧ 0xFFC < 4096 ∧ 0xFFC % 4 = 0 :=
  ⟨rfl, by decide, by decide⟩

/-- V165, and the last offset of the window. -/
theorem witness_BusErrorIsRefused :
    (accessing State.reset 0x100 2).inputs =
      [.access { offset := 0x100, size := 2, kind := .read }] ∧
    0x100 < 4096 ∧ (2 : Nat) ≠ 4 ∧ 4095 < 4096 ∧ 4095 % 4 ≠ 0 :=
  ⟨rfl, by decide, by decide, by decide, by decide⟩

theorem witness_AccessPastTheWindowFaults :
    (accessing State.reset 4096 4).inputs =
      [.access { offset := 4096, size := 4, kind := .read }] ∧ 4096 ≤ 4096 := ⟨rfl, by decide⟩

theorem witness_ResetAndIdleSteps :
    ((withErr 6).setInputs [.reset]).inputs = [.reset] ∧ State.reset.inputs = [] := ⟨rfl, rfl⟩

theorem witness_StepServesOneEvent :
    step (writing State.reset 0x010 9) = .next ((State.reset.setResp .done).setVal 9) := rfl

/-- W2's plain symbols, LEN = 15. -/
theorem witness_RingMaskIsItsBytes :
    (withSyms [3, 6, 29, 32, 0, 0, 0, 16, 1, 0, 0, 0, 0, 32, 7] 15).Legal ∧
    (withSyms [3, 6, 29, 32, 0, 0, 0, 16, 1, 0, 0, 0, 0, 32, 7] 15).err = 0 ∧
    (withSyms [3, 6, 29, 32, 0, 0, 0, 16, 1, 0, 0, 0, 0, 32, 7] 15).len.toNat = 15 := by
  unfold State.Legal; decide

end Sys2Proof.Tests
end

/-! ## The state: reset, invariants, frames and the register window (10_state.md)

Facts about the shared operations, commands, register writes and the host port come first, in the
order of the definitions they speak of; the obligations of the family follow them. -/

section
namespace Sys2Proof.Machine

/-! ### The error outcome and the issue of a command -/

/-- The error outcome as one write of the latch, its check of an earlier error inside. -/
theorem raise_eq_setErr (e : ErrCode) (s : State) :
    raise e s = s.setErr (if s.err = 0 then e.code else s.err) := by
  by_cases h : s.err = 0
  · rw [raise_of_clear h, if_pos h]
  · rw [raise_of_latched h, if_neg h, State.setErr_self]

theorem raise_inputs (e : ErrCode) (s : State) : (raise e s).inputs = s.inputs := by
  rw [raise_eq_setErr, State.setErr_inputs]

theorem raise_setRegion (e : ErrCode) (s : State) (r : BitVec 1) :
    raise e (s.setRegion r) = (raise e s).setRegion r := by
  rw [raise_eq_setErr, raise_eq_setErr]; rfl

/-- The issue reads ERR alone, so it commutes with a change of REGION where the body does. -/
theorem issue_setRegion (legal : Bool) (s body : State) (r : BitVec 1) :
    issue legal (s.setRegion r) (body.setRegion r) = (issue legal s body).setRegion r := by
  unfold issue
  rw [show latched (s.setRegion r) = latched s from rfl, raise_setRegion]
  cases latched s <;> cases legal <;> rfl

/-- The issue of a checked body commutes with a change of REGION where the body does. -/
theorem issue_check_setRegion (legal : Bool) (c : Prop) [Decidable c] (e : ErrCode)
    (s body : State) (r : BitVec 1) :
    issue legal (s.setRegion r) (if c then body.setRegion r else raise e (s.setRegion r)) =
      (issue legal s (if c then body else raise e s)).setRegion r := by
  rw [raise_setRegion, ← apply_ite (fun u : State => u.setRegion r), issue_setRegion]

/-! ### Symbols past a field -/

/-- An insert leaves alone the symbols past its last bit. -/
theorem symAt_insertField_of_le (m : Symbols) (o : Nat) (v : Word) (w : Nat) {j : Nat}
    (h : o + w ≤ 6 * j) : symAt (insertField m o v w) j = symAt m j := by
  induction w with
  | zero => rfl
  | succ w ih =>
    have hne : (o + w) / 6 ≠ j := by omega
    rw [insertField, putSbit, symAt_putSym, if_neg fun hc => hne hc.1, ih (by omega)]

/-! ### Effects of the commands -/

variable {i : Instr} {s t : State}

/-- No effect touches LEN, REGION or the model's own fields. -/
theorem Effect.keeps_own (he : Effect s i t) :
    t.len = s.len ∧ t.region = s.region ∧ t.inputs = s.inputs ∧ t.resp = s.resp := by
  cases he <;> simp

theorem Effect.eq_csum (he : Effect s i t) (h : t.sum ≠ s.sum) : i = .csum := by
  cases he with
  | csum => rfl
  | _ => simp at h

theorem Effect.eq_of_val_ne (he : Effect s i t) (h : t.val ≠ s.val) :
    (∃ off wid, i = .ext off wid) ∨ i = .lutf ∨ i = .lutr := by
  cases he with
  | ext off wid => exact .inl ⟨off, wid, rfl⟩
  | lutf => exact .inr (.inl rfl)
  | lutr => exact .inr (.inr rfl)
  | _ => simp at h

theorem Effect.eq_fmt (he : Effect s i t) (h : t.txt ≠ s.txt ∨ t.tlen ≠ s.tlen) : i = .fmt := by
  cases he with
  | fmt => rfl
  | _ => simp at h

theorem Effect.eq_of_sym_ne (he : Effect s i t) (h : t.sym ≠ s.sym) :
    i = .clrsym ∨ (∃ off wid, i = .ins off wid) ∨ i = .xciph ∨ i = .cstore ∨ i = .parse := by
  cases he with
  | clrsym => exact .inl rfl
  | ins off wid => exact .inr (.inl ⟨off, wid, rfl⟩)
  | xciph => exact .inr (.inr (.inl rfl))
  | cstore => exact .inr (.inr (.inr (.inl rfl)))
  | parse => exact .inr (.inr (.inr (.inr rfl)))
  | _ => simp at h

/-- The text of a legal secret fits `TXT`: 20 characters and 3 spaces at most (43_lut.md R163). -/
theorem length_groupedText_le (a : Alphabet) (m : Symbols) {n : Nat} (hn : n ≤ 20) :
    (groupedText a m n).length ≤ 23 := by
  rw [length_groupedText]; omega

theorem Effect.legal (he : Effect s i t) (h : s.Legal) : t.Legal := by
  cases he with
  | fmt =>
    have ⟨⟨_, hle⟩, _, _⟩ := h
    have hlen := length_groupedText_le (alphabet (activeRegion s)) s.sym hle
    refine legal_setTlen ((legal_setTxt s _).mpr h) ?_
    rw [BitVec.toNat_ofNat]
    exact (Nat.mod_le _ _).trans (hlen.trans (by omega))
  | _ => simpa using h

/-- Only CLRSYM's effect reaches a symbol at index LEN or above (10_state.md R21). -/
theorem Effect.symAt_past_len (he : Effect s i t) (hi : i ≠ .clrsym) (hlen : 1 ≤ s.len.toNat)
    {j : Nat} (hj : s.len.toNat ≤ j) (hj20 : j < 20) : symAt t.sym j = symAt s.sym j := by
  cases he with
  | clrsym => exact absurd rfl hi
  | ins off wid _ hf => exact symAt_insertField_of_le _ _ _ _ (hf.trans (by omega))
  | xciph =>
    have hact : ¬ j < activeLen s := Nat.not_lt.mpr hj
    rw [State.setSyms_sym, symAt_xcipher _ _ _ hj20, if_neg (by omega), if_neg hact]
  | cstore =>
    have hlast : lastIndex s ≠ j := by unfold lastIndex; omega
    rw [State.setSyms_sym, symAt_putSym, if_neg fun hc => hlast hc.1]
  | parse vs _ hvs =>
    have hpast : vs.length ≤ j := hvs.trans_le hj
    rw [State.setSyms_sym, symAt_loadSyms _ _ hj20, List.getD_eq_default _ _ hpast]
  | _ => simp

/-! ### Commands -/

/-- A part of the state other than ERR is changed by a command only through its effect: the other
outcomes write the latch at most. -/
theorem exec_keeps_or_effect {α : Type} (f : State → α) (hf : ∀ u v, f (u.setErr v) = f u)
    (h : exec i s = .next t) : f t = f s ∨ Effect s i t := by
  rcases exec_cases h with rfl | ⟨_, e, rfl⟩ | ⟨_, rfl⟩ | ⟨_, he⟩
  · exact .inl rfl
  · exact .inl (hf s _)
  · exact .inl (hf s _)
  · exact .inr he

/-- No command touches LEN, REGION or the model's own fields. -/
theorem exec_keeps_own (h : exec i s = .next t) :
    t.len = s.len ∧ t.region = s.region ∧ t.inputs = s.inputs ∧ t.resp = s.resp := by
  rcases exec_keeps_or_effect (fun u => (u.len, u.region, u.inputs, u.resp)) (fun _ _ => rfl) h with
    heq | he
  · simpa only [Prod.mk.injEq] using heq
  · exact he.keeps_own

theorem exec_inputs (h : exec i s = .next t) : t.inputs = s.inputs := by
  obtain ⟨_, _, hin, _⟩ := exec_keeps_own h
  exact hin

theorem exec_legal (h : exec i s = .next t) (hs : s.Legal) : t.Legal := by
  rcases exec_cases h with rfl | ⟨_, e, rfl⟩ | ⟨_, rfl⟩ | ⟨_, he⟩
  · exact hs
  · exact legal_setErr e hs
  · obtain ⟨hlen, htlen, _⟩ := hs
    exact ⟨hlen, htlen, Nat.zero_le 7⟩
  · exact he.legal hs

/-- Under a nonzero ERR every command but CLRERR leaves the state as it is (10_state.md R32). -/
theorem exec_of_latched (h : s.err ≠ 0) (hi : i ≠ .clrerr) : exec i s = .next s := by
  obtain ⟨t, ht⟩ := exec_next i s
  rcases exec_cases ht with rfl | ⟨h0, _⟩ | ⟨hc, _⟩ | ⟨h0, _⟩
  · exact ht
  · exact absurd h0 h
  · exact absurd hc hi
  · exact absurd h0 h

/-! ### The word of CLRERR -/

theorem decodeN_eq_ok {off : BitVec 7} {wid : BitVec 6} {k : BitVec 3} {j : Instr}
    (h : decodeN off wid k i = .ok j) : (off = 0 ∧ wid = 0 ∧ k = 0) ∧ i = j := by
  unfold decodeN at h
  split at h
  · cases h; exact ⟨‹_›, rfl⟩
  · cases h

theorem decodeF_eq_ok {wid : BitVec 6} {k : BitVec 3} {j : Instr}
    (h : decodeF wid k i = .ok j) : i = j := by
  unfold decodeF at h
  split at h
  · cases h; rfl
  · cases h

theorem decodeK_eq_ok {off : BitVec 7} {wid : BitVec 6} {k : BitVec 3} {lo hi : Nat} {j : Instr}
    (h : decodeK off wid k lo hi i = .ok j) : i = j := by
  unfold decodeK at h
  split at h
  · cases h; rfl
  · cases h

/-- CLRERR has one opcode, and its other fields are 0 (30_encoding.md R71, R75). -/
theorem decodeOp_eq_ok_clrerr {op : Nat} {off : BitVec 7} {wid : BitVec 6} {k : BitVec 3}
    (h : decodeOp op off wid k = .ok .clrerr) : op = 1 ∧ off = 0 ∧ wid = 0 ∧ k = 0 := by
  unfold decodeOp at h
  split at h
  -- the arms in opcode order: 2 is CLRERR, 4 and 5 have format F, 9 and 10 format K, 15 is no
  -- opcode, and the others have format N
  case h_2 => exact ⟨rfl, (decodeN_eq_ok h).1⟩
  case h_4 | h_5 => cases decodeF_eq_ok h
  case h_9 | h_10 => cases decodeK_eq_ok h
  case h_15 => cases h
  all_goals cases (decodeN_eq_ok h).2

/-- CLRERR has one word (30_encoding.md R87). -/
theorem eq_one_of_decode_clrerr {c : Word} (h : decode c = .ok .clrerr) : c = 1 := by
  obtain ⟨hrsv, hop⟩ := (decode_eq_ok c .clrerr).mp h
  obtain ⟨h1, hoff, hwid, hk⟩ := decodeOp_eq_ok_clrerr hop
  have hop1 : opField c = 1 := BitVec.eq_of_toNat_eq h1
  rw [← assemble_fields c hrsv, hop1, hoff, hwid, hk]
  rfl

/-! ### Writes of CMD and of the other registers -/

theorem runCommand_next (c : Word) (s : State) : ∃ t, runCommand c s = .next t := by
  rcases runCommand_cases c s with ⟨i, _, hrun⟩ | ⟨_, _, hrun⟩
  · rw [hrun]; exact exec_next i s
  · exact ⟨_, hrun⟩

theorem runCommand_inputs {c : Word} (h : runCommand c s = .next t) : t.inputs = s.inputs := by
  rcases runCommand_cases c s with ⟨i, _, hrun⟩ | ⟨_, _, hrun⟩
  · exact exec_inputs (hrun.symm.trans h)
  · rw [← next_inj.mp (hrun.symm.trans h), raise_inputs]

theorem runCommand_legal {c : Word} (h : runCommand c s = .next t) (hs : s.Legal) : t.Legal := by
  rcases runCommand_cases c s with ⟨i, _, hrun⟩ | ⟨_, _, hrun⟩
  · exact exec_legal (hrun.symm.trans h) hs
  · rw [← next_inj.mp (hrun.symm.trans h)]; exact legal_raise _ hs

/-- Under a nonzero ERR a write of CMD, CLRERR's word apart, leaves the state as it is. -/
theorem runCommand_of_latched {c : Word} (h : s.err ≠ 0) (hc : c ≠ 1) :
    runCommand c s = .next s := by
  rcases runCommand_cases c s with ⟨i, hi, hrun⟩ | ⟨_, _, hrun⟩
  · have hne : i ≠ .clrerr := by rintro rfl; exact hc (eq_one_of_decode_clrerr hi)
    rw [hrun, exec_of_latched h hne]
  · rw [hrun, raise_of_latched h]

/-- All a write of a register other than CMD can do: raise an error, or store a value of the
register's range and leave ERR and the events alone. -/
theorem writeReg_cases (v : Word) (s : State) (r : Reg) :
    (∃ e, writeReg v s r = raise e s) ∨
    ((s.Legal → (writeReg v s r).Legal) ∧ (writeReg v s r).inputs = s.inputs ∧
      (writeReg v s r).err = s.err) := by
  cases r with
  | len =>
    rcases writeLen_cases v s with ⟨hv, h⟩ | ⟨_, h⟩
    · have hfits : (v.setWidth 5).toNat = v.toNat := by
        rw [BitVec.toNat_setWidth, Nat.mod_eq_of_lt (by omega)]
      rw [writeReg, h]
      exact .inr ⟨fun hs => legal_setLen hs (by rwa [hfits]), rfl, rfl⟩
    · exact .inl ⟨_, h⟩
  | tlen =>
    rcases writeTlen_cases v s with ⟨hv, h⟩ | ⟨_, h⟩
    · have hfits : (v.setWidth 6).toNat = v.toNat := by
        rw [BitVec.toNat_setWidth, Nat.mod_eq_of_lt (by omega)]
      rw [writeReg, h]
      exact .inr ⟨fun hs => legal_setTlen hs (by rwa [hfits]), rfl, rfl⟩
    · exact .inl ⟨_, h⟩
  | sym j =>
    rcases writeSym_cases j v s with ⟨_, h⟩ | ⟨_, h⟩
    · rw [writeReg, h]
      exact .inr ⟨(legal_setSyms s _).mpr, rfl, rfl⟩
    · exact .inl ⟨_, h⟩
  | region => exact .inr ⟨(legal_setRegion s _).mpr, rfl, rfl⟩
  | val => exact .inr ⟨(legal_setVal s _).mpr, rfl, rfl⟩
  | txt j => exact .inr ⟨(legal_setTxt s _).mpr, rfl, rfl⟩
  | cmd | status | sum | reserved => exact .inr ⟨id, rfl, rfl⟩

theorem writeReg_inputs (v : Word) (s : State) (r : Reg) : (writeReg v s r).inputs = s.inputs := by
  rcases writeReg_cases v s r with ⟨e, h⟩ | ⟨_, hin, _⟩
  · rw [h, raise_inputs]
  · exact hin

theorem writeReg_legal (v : Word) (r : Reg) (hs : s.Legal) : (writeReg v s r).Legal := by
  rcases writeReg_cases v s r with ⟨e, h⟩ | ⟨hlegal, _, _⟩
  · rw [h]; exact legal_raise e hs
  · exact hlegal hs

/-- A register write acts under the latch, and leaves the latch alone there (10_state.md R33). -/
theorem writeReg_err_of_latched (v : Word) (r : Reg) (hs : s.err ≠ 0) :
    (writeReg v s r).err = s.err := by
  rcases writeReg_cases v s r with ⟨e, h⟩ | ⟨_, _, herr⟩
  · rw [h, raise_of_latched hs]
  · exact herr

/-! ### Accesses -/

variable {a : Access}

theorem hostAccess_read (ha : (HostEvent.access a).Servable) (hk : a.kind = .read) (s : State) :
    hostAccess a s = .next (s.setResp (.data (readReg s (regAt a.offset)))) := by
  obtain ⟨hlt, hsize, halign⟩ := ha
  rw [hostAccess, if_neg (by omega), if_neg (by omega)]
  simp only [hk]

theorem hostAccess_command {v : Word} (ha : (HostEvent.access a).Servable) (hk : a.kind = .write v)
    (hr : regAt a.offset = .cmd) (s : State) :
    hostAccess a s = runCommand v (s.setResp .done) := by
  obtain ⟨hlt, hsize, halign⟩ := ha
  rw [hostAccess, if_neg (by omega), if_neg (by omega)]
  simp only [hk, hr]

theorem hostAccess_write {v : Word} (ha : (HostEvent.access a).Servable) (hk : a.kind = .write v)
    (hr : regAt a.offset ≠ .cmd) (s : State) :
    hostAccess a s = .next (writeReg v (s.setResp .done) (regAt a.offset)) := by
  obtain ⟨hlt, hsize, halign⟩ := ha
  rw [hostAccess, if_neg (by omega), if_neg (by omega)]
  -- `hr` rules out the arm of CMD
  simp only [hk]

/-- Every aligned word access of the window is answered (20_memory.md R51). -/
theorem hostAccess_next (ha : (HostEvent.access a).Servable) (s : State) :
    ∃ t, hostAccess a s = .next t := by
  cases hk : a.kind with
  | read => exact ⟨_, hostAccess_read ha hk s⟩
  | write v =>
    by_cases hr : regAt a.offset = .cmd
    · rw [hostAccess_command ha hk hr]; exact runCommand_next v _
    · exact ⟨_, hostAccess_write ha hk hr s⟩

theorem hostAccess_inputs (h : hostAccess a s = .next t) : t.inputs = s.inputs := by
  obtain ⟨_, ⟨_, rfl⟩ | ⟨v, _, _, hrun⟩ | ⟨v, _, _, rfl⟩⟩ := hostAccess_cases h
  · rfl
  · rw [runCommand_inputs hrun, State.setResp_inputs]
  · rw [writeReg_inputs, State.setResp_inputs]

theorem hostAccess_legal (h : hostAccess a s = .next t) (hs : s.Legal) : t.Legal := by
  have hdone : (s.setResp .done).Legal := (legal_setResp s _).mpr hs
  obtain ⟨_, ⟨_, rfl⟩ | ⟨v, _, _, hrun⟩ | ⟨v, _, _, rfl⟩⟩ := hostAccess_cases h
  · exact (legal_setResp s _).mpr hs
  · exact runCommand_legal hrun hdone
  · exact writeReg_legal v _ hdone

/-- Under a nonzero ERR an access that is no write of CLRERR's word to CMD keeps the latch. -/
theorem hostAccess_err_of_latched (h : hostAccess a s = .next t) (hs : s.err ≠ 0)
    (hclr : a ≠ { offset := 0x000, size := 4, kind := .write 0x00000001 }) : t.err = s.err := by
  have hdone : (s.setResp .done).err ≠ 0 := hs
  obtain ⟨⟨_, hsize, _⟩, hcases⟩ := hostAccess_cases h
  obtain ⟨_, rfl⟩ | ⟨v, hk, hcmd, hrun⟩ | ⟨v, _, _, rfl⟩ := hcases
  · rfl
  · have hv : v ≠ 1 := by
      rintro rfl
      have ho := (regAt_eq_cmd a.offset).mp hcmd
      obtain ⟨o, sz, k⟩ := a
      obtain rfl : o = 0 := ho
      obtain rfl : sz = 4 := hsize
      obtain rfl : k = .write 1 := hk
      exact hclr rfl
    rw [runCommand_of_latched hdone hv] at hrun
    rw [← next_inj.mp hrun, State.setResp_err]
  · exact writeReg_err_of_latched v _ hdone

/-! ### Steps and runs -/

theorem step_of_inputs_nil (h : s.inputs = []) : step s = .next s := by
  simp only [step, hostStep, h]

theorem step_of_reset {rest : List HostEvent} (h : s.inputs = .reset :: rest) :
    step s = .next (State.reset.setInputs rest) := by
  simp only [step, hostStep, h, resetRegisters, State.setInputs_inputs]

theorem step_of_access {rest : List HostEvent} (h : s.inputs = .access a :: rest) :
    step s = hostAccess a (s.setInputs rest) := by
  simp only [step, hostStep, h]

theorem reset_legal : State.reset.Legal :=
  ⟨⟨by decide, by decide⟩, by decide, by decide⟩

theorem step_legal (hs : s.Legal) (h : step s = .next t) : t.Legal := by
  rcases step_cases h with ⟨_, rfl⟩ | ⟨rest, _, rfl⟩ | ⟨a, rest, _, hacc⟩
  · exact hs
  · exact (legal_setInputs _ rest).mpr reset_legal
  · exact hostAccess_legal hacc ((legal_setInputs s rest).mpr hs)

/-- A step takes the first event off, and there is none to take where the SCU is idle. -/
theorem step_inputs (h : step s = .next t) : t.inputs = s.inputs.drop 1 := by
  rcases step_cases h with ⟨hnil, rfl⟩ | ⟨rest, hin, rfl⟩ | ⟨a, rest, hin, hacc⟩
  · rw [hnil]; rfl
  · rw [hin]; rfl
  · rw [hostAccess_inputs hacc, hin]; rfl

/-- Progress: with a servable event next, or none, a step is answered. -/
theorem step_next (h : ∀ e ∈ s.inputs, e.Servable) : ∃ t, step s = .next t := by
  cases hin : s.inputs with
  | nil => exact ⟨s, step_of_inputs_nil hin⟩
  | cons e rest =>
    cases e with
    | reset => exact ⟨_, step_of_reset hin⟩
    | access a =>
      have ha : (HostEvent.access a).Servable := h _ (hin ▸ List.mem_cons_self)
      obtain ⟨t, ht⟩ := hostAccess_next ha (s.setInputs rest)
      exact ⟨t, (step_of_access hin).trans ht⟩

/-- A run whose first step is answered goes on from the answer. -/
theorem run_succ_of_step {M : Host.Core} {u w : M.State} (k : Nat) (h : M.step u = .next w) :
    M.run (k + 1) u = M.run k w := by
  rw [Host.Core.run, h]

/-! ### The register window -/

theorem regOffset_lt (r : Reg) : regOffset r < 4096 := by
  cases r with
  | sym j => have := j.isLt; simp only [regOffset]; omega
  | txt j => have := j.isLt; simp only [regOffset]; omega
  | _ => decide

theorem regOffset_aligned (r : Reg) : regOffset r % 4 = 0 := by
  cases r with
  | sym j => simp only [regOffset]; omega
  | txt j => simp only [regOffset]; omega
  | _ => rfl

/-- The reserved words, each range of them with its last word (10_state.md R36). -/
theorem regAt_reserved_word {o : Nat} (halign : o % 4 = 0)
    (h : (0x01C ≤ o ∧ o ≤ 0x0FC) ∨ (0x150 ≤ o ∧ o ≤ 0x1FC) ∨ (0x280 ≤ o ∧ o ≤ 0xFFC)) :
    regAt o = .reserved :=
  regAt_reserved halign (h.imp_right (Or.imp_right And.left))

/-- No register holds the model's own list of events. -/
theorem readReg_setInputs (s : State) (l : List HostEvent) (r : Reg) :
    readReg (s.setInputs l) r = readReg s r := by
  cases r <;> rfl

variable {o : Nat} {v : Word} {rest : List HostEvent}

/-- A read answers the register at its offset, and changes no register. -/
theorem step_read (h : NextIsRead s o rest) (hlt : o < 4096) (halign : o % 4 = 0) :
    step s = .next ((s.setInputs rest).setResp (.data (readReg s (regAt o)))) := by
  rw [step_of_access h, hostAccess_read ⟨hlt, rfl, halign⟩ rfl, readReg_setInputs]

/-- A write past CMD is the register's own write, in the state that has accepted it. -/
theorem step_write (h : NextIsWrite s o v rest) (hlt : o < 4096) (halign : o % 4 = 0)
    (hr : regAt o ≠ .cmd) :
    step s = .next (writeReg v (s.acceptedWrite rest) (regAt o)) := by
  rw [step_of_access h, hostAccess_write ⟨hlt, rfl, halign⟩ rfl hr]
  rfl

theorem step_readReg (r : Reg) (h : NextIsRead s (regOffset r) rest) :
    step s = .next ((s.setInputs rest).setResp (.data (readReg s r))) := by
  rw [step_read h (regOffset_lt r) (regOffset_aligned r), regAt_regOffset]

theorem step_writeReg (r : Reg) (hr : r ≠ .cmd) (h : NextIsWrite s (regOffset r) v rest) :
    step s = .next (writeReg v (s.acceptedWrite rest) r) := by
  rw [step_write h (regOffset_lt r) (regOffset_aligned r) (by rwa [regAt_regOffset]),
    regAt_regOffset]

/-- The error outcome in the state that has accepted a write: the latch is the one of before it. -/
theorem raise_acceptedWrite (e : ErrCode) (s : State) (rest : List HostEvent) :
    raise e (s.acceptedWrite rest) =
      if s.err = 0 then (s.acceptedWrite rest).setErr e.code else s.acceptedWrite rest := by
  by_cases h : s.err = 0
  · rw [raise_of_clear (s := s.acceptedWrite rest) h, if_pos h]
  · rw [raise_of_latched (s := s.acceptedWrite rest) h, if_neg h]

/-- The number of a word's low bits, as a word of that width. -/
theorem ofNat_mod_two_pow (v : Word) (n : Nat) : BitVec.ofNat n (v.toNat % 2 ^ n) = v.setWidth n := by
  apply BitVec.eq_of_toNat_eq
  rw [BitVec.toNat_ofNat, BitVec.toNat_setWidth, Nat.mod_mod]

end Sys2Proof.Machine
end

section
namespace Sys2Proof.Proofs
open Sys2Proof.Machine

/-! ### The obligations of the family -/

/-- Settles O1: each entry of a fresh buffer is the value it is filled with. -/
theorem resetGivesTheSpecValues : Obligations.ResetGivesTheSpecValues := by
  unfold Obligations.ResetGivesTheSpecValues
  refine ⟨fun i => ?_, rfl, rfl, rfl, rfl, rfl, fun i => ?_, rfl⟩
  · exact Vector.getElem_replicate i.isLt
  · exact Vector.getElem_replicate i.isLt

/-- Settles O2. -/
theorem resetIsLegal : Obligations.ResetIsLegal := reset_legal

/-- Settles O3: the ranges are kept by every command, register write and reset. -/
theorem stepKeepsLegalRegisters : Obligations.StepKeepsLegalRegisters := by
  unfold Obligations.StepKeepsLegalRegisters
  intro s t hs h
  exact step_legal hs h

/-- Settles O4, by induction on the number of steps: a step is answered, and keeps the state legal
and the events left servable. -/
theorem runsOfServableEventsNeverStop : Obligations.RunsOfServableEventsNeverStop := by
  unfold Obligations.RunsOfServableEventsNeverStop
  intro k
  induction k with
  | zero => exact fun s hs _ => ⟨s, rfl, hs, rfl⟩
  | succ k ih =>
    intro s hs hev
    obtain ⟨t, ht⟩ := step_next hev
    have hin := step_inputs ht
    have hev' : ∀ e ∈ t.inputs, e.Servable := fun e he => hev e (List.mem_of_mem_drop (hin ▸ he))
    obtain ⟨u, hrun, hu, hdrop⟩ := ih t (step_legal hs ht) hev'
    refine ⟨u, (run_succ_of_step (M := core) k ht).trans hrun, hu, ?_⟩
    rw [hdrop, hin, List.drop_drop, Nat.add_comm]

/-- Settles O14: NOP, too, changes nothing, so its exclusion is not needed. -/
theorem latchedCommandsAreIgnored : Obligations.LatchedCommandsAreIgnored := by
  unfold Obligations.LatchedCommandsAreIgnored
  intro i s herr _ hclr
  exact exec_of_latched herr hclr

/-- Settles O15: of the steps left, none writes a latch that is nonzero. -/
theorem latchHoldsUntilClrerrOrReset : Obligations.LatchHoldsUntilClrerrOrReset := by
  unfold Obligations.LatchHoldsUntilClrerrOrReset
  intro s t herr h hreset hclr
  rcases step_cases h with ⟨_, rfl⟩ | ⟨rest, hin, _⟩ | ⟨a, rest, hin, hacc⟩
  · rfl
  · exact absurd hin (hreset rest)
  · have ha : a ≠ { offset := 0x000, size := 4, kind := .write 0x00000001 } := by
      rintro rfl
      exact hclr rest hin
    exact hostAccess_err_of_latched (s := s.setInputs rest) hacc herr ha

/-- Settles O46: an error and CLRERR write ERR alone, so any other change is the command's effect. -/
theorem commandsWriteOnlyTheirRegisters : Obligations.CommandsWriteOnlyTheirRegisters := by
  unfold Obligations.CommandsWriteOnlyTheirRegisters
  intro i s t h
  obtain ⟨hlen, hregion, hinputs, hresp⟩ := exec_keeps_own h
  refine ⟨hlen, hregion, hinputs, hresp, fun hsum => ?_, fun hval => ?_, fun htext => ?_,
    fun hsym => ?_⟩
  · exact ((exec_keeps_or_effect State.sum (fun _ _ => rfl) h).resolve_left hsum).eq_csum hsum
  · exact ((exec_keeps_or_effect State.val (fun _ _ => rfl) h).resolve_left hval).eq_of_val_ne hval
  · rcases exec_keeps_or_effect (fun u => (u.txt, u.tlen)) (fun _ _ => rfl) h with heq | he
    · obtain ⟨htxt, htlen⟩ := Prod.mk.inj heq
      exact htext.elim (absurd htxt) (absurd htlen)
    · exact he.eq_fmt htext
  · exact ((exec_keeps_or_effect State.sym (fun _ _ => rfl) h).resolve_left hsym).eq_of_sym_ne hsym

/-- Settles O47: a field that fits, the last symbol and the parsed symbols all lie below LEN. -/
theorem symbolsPastLenAreKept : Obligations.SymbolsPastLenAreKept := by
  unfold Obligations.SymbolsPastLenAreKept
  intro i s t j hs h hi hj
  rcases exec_keeps_or_effect State.sym (fun _ _ => rfl) h with heq | he
  · rw [heq]
  · obtain ⟨⟨hpos, _⟩, _, _⟩ := hs
    have hsym := he.symAt_past_len hi hpos hj j.isLt
    rwa [symAt_of_lt _ j.isLt, symAt_of_lt _ j.isLt] at hsym

/-- Settles O48: each body and each check reads no REGION, and the issue commutes with its change. -/
theorem regionIsReadByTableCommandsOnly : Obligations.RegionIsReadByTableCommandsOnly := by
  unfold Obligations.RegionIsReadByTableCommandsOnly
  intro i r s t hxciph hlutf hlutr hfmt hparse h
  cases i with
  | nop => cases h; rfl
  | clrerr => cases h; rfl
  | clrsym => cases h; exact next_inj.mpr (issue_setRegion true s (s.setSyms _) r)
  | ext off wid =>
    cases h; exact next_inj.mpr (issue_check_setRegion _ _ .range s (s.setVal _) r)
  | ins off wid =>
    cases h; exact next_inj.mpr (issue_check_setRegion _ _ .range s (s.setSyms _) r)
  | csum => cases h; exact next_inj.mpr (issue_setRegion true s (s.setSum _) r)
  | cstore => cases h; exact next_inj.mpr (issue_setRegion true s (s.setSyms _) r)
  | cver k => cases h; exact next_inj.mpr (issue_check_setRegion _ _ .checksumMismatch s s r)
  | vkind k => cases h; exact next_inj.mpr (issue_check_setRegion _ _ .wrongKind s s r)
  | xciph => exact absurd rfl hxciph
  | lutf => exact absurd rfl hlutf
  | lutr => exact absurd rfl hlutr
  | fmt => exact absurd rfl hfmt
  | parse => exact absurd rfl hparse

/-- Settles O49: a legal value is stored, another raises BAD_PARAM. -/
theorem lengthWritesAreChecked : Obligations.LengthWritesAreChecked := by
  unfold Obligations.LengthWritesAreChecked
  refine fun s v rest => ⟨fun h => ?_, fun h => ?_⟩
  · rw [step_writeReg .len (by decide) h, writeReg, writeLen, raise_acceptedWrite,
      BitVec.ofNat_toNat]
    rfl
  · rw [step_writeReg .tlen (by decide) h, writeReg, writeTlen, raise_acceptedWrite,
      BitVec.ofNat_toNat]
    rfl

/-- Settles O51: none of the three writes is checked. -/
theorem uncheckedWritesStore : Obligations.UncheckedWritesStore := by
  unfold Obligations.UncheckedWritesStore
  refine fun s v rest => ⟨fun h => ?_, fun h => ?_, fun i h => ?_⟩
  · rw [step_writeReg .region (by decide) h, writeReg, ← ofNat_mod_two_pow v 1, pow_one]
  · rw [step_writeReg .val (by decide) h, writeReg]
  · rw [step_writeReg (.txt i) (by simp) h, writeReg, ofNat_mod_two_pow]
    rfl

/-- Settles O52: the offsets named are those of registers that a write leaves alone, or that read
as 0. -/
theorem readOnlyAndReservedWords : Obligations.ReadOnlyAndReservedWords := by
  unfold Obligations.ReadOnlyAndReservedWords
  intro s o v rest halign
  refine ⟨fun h ho => ?_, fun h ho => ?_⟩
  · rcases ho with rfl | rfl | ho
    · exact step_writeReg .status (by decide) h
    · exact step_writeReg .sum (by decide) h
    · have hr := regAt_reserved_word halign ho
      rw [step_write h (by omega) halign (by rw [hr]; decide), hr]
      rfl
  · rcases ho with rfl | ho
    · exact step_readReg .cmd h
    · rw [step_read h (by omega) halign, regAt_reserved_word halign ho]
      rfl

/-- Settles O53: a register's number, as a 32-bit word, is its bits with 0 above them. -/
theorem readsAnswerTheRegisters : Obligations.ReadsAnswerTheRegisters := by
  unfold Obligations.ReadsAnswerTheRegisters
  simp only [BitVec.ofNat_toNat]
  intro s rest
  exact ⟨step_readReg .status, step_readReg .len, step_readReg .region, step_readReg .val,
    step_readReg .sum, step_readReg .tlen, fun i => step_readReg (.sym i),
    fun i => step_readReg (.txt i)⟩

end Sys2Proof.Proofs
end

/-! ## The host port: which accesses are served, and what each does (20_memory.md)

The two stops of an access, the write of CMD and the write of SYM[i] come first; the obligations of
the family follow them. -/

section
namespace Sys2Proof.Machine

variable {a : Access} {s : State} {c : Word} {i : Instr} {rest : List HostEvent}

/-- Past the window there is no SCU, whatever the access's width and alignment (log entry 5). -/
theorem hostAccess_past_window (h : 4096 ≤ a.offset) (s : State) :
    hostAccess a s = .fault .outsideWindow := by
  rw [hostAccess, if_pos h]

/-- In the window the bus error stands before any register is looked at (20_memory.md R51). -/
theorem hostAccess_busError (hlt : a.offset < 4096) (hbad : a.size ≠ 4 ∨ a.offset % 4 ≠ 0)
    (s : State) : hostAccess a s = .refused .busError := by
  rw [hostAccess, if_neg (Nat.not_le.mpr hlt), if_pos hbad]

theorem runCommand_of_decode (h : decode c = .ok i) (s : State) : runCommand c s = exec i s := by
  rw [runCommand, h]

/-- A write of CMD is the run of its word, in the state that has accepted the write. -/
theorem step_writeCmd (h : NextIsWrite s (regOffset .cmd) c rest) :
    step s = runCommand c (s.acceptedWrite rest) := by
  have hserv : (HostEvent.access
      { offset := regOffset .cmd, size := 4, kind := .write c }).Servable :=
    ⟨regOffset_lt .cmd, rfl, regOffset_aligned .cmd⟩
  rw [step_of_access h, hostAccess_command hserv rfl (regAt_regOffset .cmd)]
  rfl

/-- The check of a write of SYM[i] in the state that has accepted it: a value that fits is stored,
and the error of another falls on the latch of before the write (20_memory.md R55). -/
theorem writeSym_acceptedWrite (j : Fin 20) (v : Word) (s : State) (rest : List HostEvent) :
    writeSym j v (s.acceptedWrite rest) =
      if v.toNat ≤ 63 then (s.acceptedWrite rest).setSyms (s.sym.set j.val (v.setWidth 6))
      else if s.err = 0 then (s.acceptedWrite rest).setErr ErrCode.invalidSymbol.code
      else s.acceptedWrite rest := by
  rcases writeSym_cases j v (s.acceptedWrite rest) with ⟨hfits, hw⟩ | ⟨hover, hw⟩
  · rw [hw, if_pos hfits]; rfl
  · rw [hw, if_neg hover, raise_acceptedWrite]

end Sys2Proof.Machine
end

section
namespace Sys2Proof.Proofs
open Sys2Proof.Machine

/-! ### The obligations of the family of the host port -/

/-- Settles O50: SYM[i] stands at its offset, and its write is checked. -/
theorem symWriteIsChecked : Obligations.SymWriteIsChecked := by
  unfold Obligations.SymWriteIsChecked
  intro s i v rest h
  rw [step_writeReg (.sym i) (by simp) h, writeReg, writeSym_acceptedWrite, BitVec.ofNat_toNat]
  rfl

/-- Settles O54: a read writes the port's answer alone, which is no register. -/
theorem readsHaveNoSideEffects : Obligations.ReadsHaveNoSideEffects := by
  unfold Obligations.ReadsHaveNoSideEffects
  intro s o rest h hlt halign
  exact ⟨_, step_read h hlt halign, rfl, rfl⟩

/-- Settles O58: the one event that a step serves is the list's first. -/
theorem stepServesOneEvent : Obligations.StepServesOneEvent := by
  unfold Obligations.StepServesOneEvent
  intro s t h
  rw [step_inputs h, List.drop_one]

/-- Settles O10: the write reaches CMD, and its word's decode picks the command. -/
theorem stepRunsTheDecodedCommand : Obligations.StepRunsTheDecodedCommand := by
  unfold Obligations.StepRunsTheDecodedCommand
  intro s c rest i h hdec
  rw [step_writeCmd h, runCommand_of_decode hdec]

/-- Settles O55. -/
theorem busErrorIsRefused : Obligations.BusErrorIsRefused := by
  unfold Obligations.BusErrorIsRefused
  intro s a rest h hlt hbad
  rw [step_of_access h, hostAccess_busError hlt hbad]

/-- Settles O56: the window's end is checked first. -/
theorem accessPastTheWindowFaults : Obligations.AccessPastTheWindowFaults := by
  unfold Obligations.AccessPastTheWindowFaults
  intro s a rest h hpast
  rw [step_of_access h, hostAccess_past_window hpast]

end Sys2Proof.Proofs
end

/-! ## The command word: encoding, decoding and the words that are no command (30_encoding.md)

The fields that each command's word holds are said once, and the decoder's three formats and its
opcode map are inverted onto them; the obligations of the family follow. -/

section
namespace Sys2Proof

/-! ### The fields of a command's word -/

/-- OP of the command's word (30_encoding.md R75). -/
def Instr.opcode : Instr → BitVec 6
  | .nop => 0x00
  | .clrerr => 0x01
  | .clrsym => 0x02
  | .ext _ _ => 0x04
  | .ins _ _ => 0x05
  | .xciph => 0x08
  | .csum => 0x0C
  | .cstore => 0x0D
  | .cver _ => 0x0E
  | .vkind _ => 0x0F
  | .lutf => 0x10
  | .lutr => 0x11
  | .fmt => 0x12
  | .parse => 0x13

/-- OFF of the command's word: 0 outside format F (30_encoding.md R71 to R73). -/
def Instr.offOperand : Instr → BitVec 7
  | .ext off _ | .ins off _ => off
  | _ => 0

/-- WID of the command's word: 0 outside format F (30_encoding.md R71 to R73). -/
def Instr.widOperand : Instr → BitVec 6
  | .ext _ wid | .ins _ wid => wid
  | _ => 0

/-- K of the command's word: 0 outside format K (30_encoding.md R71 to R73). -/
def Instr.kOperand : Instr → BitVec 3
  | .cver k | .vkind k => k
  | _ => 0

theorem encode_eq_assemble (i : Instr) :
    encode i = assemble i.opcode i.offOperand i.widOperand i.kOperand := by
  cases i <;> rfl

/-- A command's word as a number. -/
theorem toNat_encode (i : Instr) : (encode i).toNat =
    i.opcode.toNat + i.offOperand.toNat * 64 + i.widOperand.toNat * 8192 +
      i.kOperand.toNat * 524288 := by
  rw [encode_eq_assemble, toNat_assemble]

/-! ### The decoder -/

section
variable {off : BitVec 7} {wid : BitVec 6} {k : BitVec 3} {i j : Instr}

/-- A format's check answers its own command where it passes, and no command where it does not. -/
theorem check_eq_ok_iff {p : Prop} [Decidable p] {e : DecodeError} :
    (if p then .ok i else .error e) = (.ok j : Except DecodeError Instr) ↔ p ∧ i = j := by
  by_cases hp : p
  · rw [if_pos hp, Except.ok.injEq, and_iff_right hp]
  · simp [hp]

theorem decodeN_eq_ok_iff :
    decodeN off wid k i = .ok j ↔ (off = 0 ∧ wid = 0 ∧ k = 0) ∧ i = j :=
  check_eq_ok_iff

theorem decodeF_eq_ok_iff : decodeF wid k i = .ok j ↔ (k = 0 ∧ wid.toNat ≤ 32) ∧ i = j :=
  check_eq_ok_iff

theorem decodeK_eq_ok_iff {lo hi : Nat} : decodeK off wid k lo hi i = .ok j ↔
    (off = 0 ∧ wid = 0 ∧ lo ≤ k.toNat ∧ k.toNat ≤ hi) ∧ i = j :=
  check_eq_ok_iff

/-- Decoded operands are legal, and the fields they come from are those of the command's word. -/
theorem fields_of_decodeOp {op : Nat} (h : decodeOp op off wid k = .ok i) :
    i.wellFormed = true ∧ op = i.opcode.toNat ∧ off = i.offOperand ∧ wid = i.widOperand ∧
      k = i.kOperand := by
  unfold decodeOp at h
  split at h
  -- the arms in opcode order: 4 and 5 have format F, 9 and 10 format K, 15 is no opcode, and the
  -- others have format N
  case h_4 | h_5 =>
    obtain ⟨⟨rfl, hwid⟩, rfl⟩ := decodeF_eq_ok_iff.mp h
    exact ⟨decide_eq_true hwid, rfl, rfl, rfl, rfl⟩
  case h_9 =>
    obtain ⟨⟨rfl, rfl, hk⟩, rfl⟩ := decodeK_eq_ok_iff.mp h
    exact ⟨decide_eq_true hk, rfl, rfl, rfl, rfl⟩
  case h_10 =>
    obtain ⟨⟨rfl, rfl, _, hk⟩, rfl⟩ := decodeK_eq_ok_iff.mp h
    exact ⟨decide_eq_true hk, rfl, rfl, rfl, rfl⟩
  case h_15 => cases h
  all_goals
    obtain ⟨⟨rfl, rfl, rfl⟩, rfl⟩ := decodeN_eq_ok_iff.mp h
    exact ⟨rfl, rfl, rfl, rfl, rfl⟩

/-- The fields of a well-formed command's word pass the checks of its format. -/
theorem decodeOp_fields (h : i.wellFormed = true) :
    decodeOp i.opcode.toNat i.offOperand i.widOperand i.kOperand = .ok i := by
  cases i with
  | ext off wid => exact decodeF_eq_ok_iff.mpr ⟨⟨rfl, of_decide_eq_true h⟩, rfl⟩
  | ins off wid => exact decodeF_eq_ok_iff.mpr ⟨⟨rfl, of_decide_eq_true h⟩, rfl⟩
  | cver k => exact decodeK_eq_ok_iff.mpr ⟨⟨rfl, rfl, of_decide_eq_true h⟩, rfl⟩
  | vkind k =>
    exact decodeK_eq_ok_iff.mpr ⟨⟨rfl, rfl, Nat.zero_le _, of_decide_eq_true h⟩, rfl⟩
  | _ => rfl

end

theorem decode_encode {i : Instr} (h : i.wellFormed = true) : decode (encode i) = .ok i := by
  rw [decode_eq_ok, encode_eq_assemble, opField_assemble, offField_assemble, widField_assemble,
    kField_assemble, rsvField_assemble]
  exact ⟨rfl, decodeOp_fields h⟩

theorem encode_of_decode {c : Word} {i : Instr} (h : decode c = .ok i) :
    i.wellFormed = true ∧ encode i = c := by
  obtain ⟨hrsv, hop⟩ := (decode_eq_ok c i).mp h
  obtain ⟨hwf, hopc, hoff, hwid, hk⟩ := fields_of_decodeOp hop
  have hopf : opField c = i.opcode := BitVec.eq_of_toNat_eq hopc
  refine ⟨hwf, ?_⟩
  rw [encode_eq_assemble, ← hopf, ← hoff, ← hwid, ← hk, assemble_fields c hrsv]

/-! ### The table of the legal words -/

/-- The fields below RSV that make a command, as numbers: a row for each format, and for format K a
row for each opcode (30_encoding.md R71 to R73, R75). -/
def LegalFields (op off wid k : Nat) : Prop :=
  (op ∈ [0x00, 0x01, 0x02, 0x08, 0x0C, 0x0D, 0x10, 0x11, 0x12, 0x13] ∧
    off = 0 ∧ wid = 0 ∧ k = 0) ∨
  (op ∈ [0x04, 0x05] ∧ wid ≤ 32 ∧ k = 0) ∨
  (op = 0x0E ∧ off = 0 ∧ wid = 0 ∧ 1 ≤ k ∧ k ≤ 4) ∨
  (op = 0x0F ∧ off = 0 ∧ wid = 0 ∧ k ≤ 3)

/-- The fields of a well-formed command's word stand in the table. -/
theorem legalFields_of_wellFormed {i : Instr} (h : i.wellFormed = true) :
    LegalFields i.opcode.toNat i.offOperand.toNat i.widOperand.toNat i.kOperand.toNat := by
  cases i with
  | ext off wid => exact .inr (.inl ⟨.head _, of_decide_eq_true h, rfl⟩)
  | ins off wid => exact .inr (.inl ⟨.tail _ (.head _), of_decide_eq_true h, rfl⟩)
  | cver k => exact .inr (.inr (.inl ⟨rfl, rfl, rfl, of_decide_eq_true h⟩))
  | vkind k => exact .inr (.inr (.inr ⟨rfl, rfl, rfl, of_decide_eq_true h⟩))
  | _ => exact .inl ⟨by decide, rfl, rfl, rfl⟩

/-- Fields that stand in the table decode: each opcode of a row has the row's format. -/
theorem decodeOp_of_legalFields {op : Nat} {off : BitVec 7} {wid : BitVec 6} {k : BitVec 3}
    (h : LegalFields op off.toNat wid.toNat k.toNat) : ∃ i, decodeOp op off wid k = .ok i := by
  rcases h with ⟨hop, hoff, hwid, hk⟩ | ⟨hop, hwid, hk⟩ | ⟨rfl, hoff, hwid, hk⟩ |
    ⟨rfl, hoff, hwid, hk⟩
  · obtain rfl : off = 0 := BitVec.eq_of_toNat_eq hoff
    obtain rfl : wid = 0 := BitVec.eq_of_toNat_eq hwid
    obtain rfl : k = 0 := BitVec.eq_of_toNat_eq hk
    fin_cases hop <;> exact ⟨_, rfl⟩
  · have hk0 : k = 0 := BitVec.eq_of_toNat_eq hk
    fin_cases hop <;> exact ⟨_, decodeF_eq_ok_iff.mpr ⟨⟨hk0, hwid⟩, rfl⟩⟩
  · exact ⟨_, decodeK_eq_ok_iff.mpr
      ⟨⟨BitVec.eq_of_toNat_eq hoff, BitVec.eq_of_toNat_eq hwid, hk⟩, rfl⟩⟩
  · exact ⟨_, decodeK_eq_ok_iff.mpr
      ⟨⟨BitVec.eq_of_toNat_eq hoff, BitVec.eq_of_toNat_eq hwid, Nat.zero_le _, hk⟩, rfl⟩⟩

/-- A word is a command exactly where RSV is 0 and its other fields stand in the table. -/
theorem exists_decode_iff (c : Word) : (∃ i, decode c = .ok i) ↔
    c.toNat / 4194304 = 0 ∧ LegalFields (c.toNat % 64) (c.toNat / 64 % 128)
      (c.toNat / 8192 % 64) (c.toNat / 524288 % 8) := by
  obtain ⟨hop, hoff, hwid, hk, hrsv⟩ := toNat_fields c
  rw [← hop, ← hoff, ← hwid, ← hk, ← hrsv]
  constructor
  · rintro ⟨i, h⟩
    obtain ⟨hr, hi⟩ := (decode_eq_ok c i).mp h
    obtain ⟨hwf, hopc, hoffi, hwidi, hki⟩ := fields_of_decodeOp hi
    rw [hr, hopc, hoffi, hwidi, hki]
    exact ⟨rfl, legalFields_of_wellFormed hwf⟩
  · rintro ⟨hr, hlegal⟩
    obtain ⟨i, hi⟩ := decodeOp_of_legalFields hlegal
    exact ⟨i, (decode_eq_ok c i).mpr ⟨BitVec.eq_of_toNat_eq hr, hi⟩⟩

end Sys2Proof
end

section
namespace Sys2Proof.Machine

/-- A word that is no command raises ILLEGAL_CMD, whatever is wrong with it (30_encoding.md R77). -/
theorem runCommand_of_no_command {c : Word} (h : ¬ ∃ i, decode c = .ok i) (s : State) :
    runCommand c s = .next (raise .illegalCmd s) := by
  rcases runCommand_cases c s with ⟨i, hi, _⟩ | ⟨_, _, hrun⟩
  · exact absurd ⟨i, hi⟩ h
  · exact hrun

end Sys2Proof.Machine
end

section
namespace Sys2Proof.Proofs
open Sys2Proof.Machine

/-! ### The obligations of the family of the encoding -/

/-- Settles O5: the fields of a word assembled are those it was assembled from, and a well-formed
command's fields pass its format's checks. -/
theorem decodeUndoesEncode : Obligations.DecodeUndoesEncode := by
  unfold Obligations.DecodeUndoesEncode
  exact fun _ h => decode_encode h

/-- Settles O6: the fields of a decoded word are those of its command's word, and no others are
left. -/
theorem decodedWordIsItsEncoding : Obligations.DecodedWordIsItsEncoding := by
  unfold Obligations.DecodedWordIsItsEncoding
  exact fun _ _ h => encode_of_decode h

/-- Settles O9. -/
theorem legalWordsAreExactlyTheTable : Obligations.LegalWordsAreExactlyTheTable := by
  unfold Obligations.LegalWordsAreExactlyTheTable
  exact exists_decode_iff

/-- Settles O11: each clause keeps the word out of the table of legal words, so it raises. -/
theorem illegalWordsRaiseIllegalCmd : Obligations.IllegalWordsRaiseIllegalCmd := by
  unfold Obligations.IllegalWordsRaiseIllegalCmd
  intro s c rest h hillegal
  have hno : ¬ ∃ i, decode c = .ok i := by
    rw [exists_decode_iff, LegalFields]
    generalize c.toNat / 4194304 = rsv, c.toNat % 64 = op, c.toNat / 64 % 128 = off,
      c.toNat / 8192 % 64 = wid, c.toNat / 524288 % 8 = k at hillegal ⊢
    simp only [List.mem_cons, List.not_mem_nil, or_false] at hillegal ⊢
    omega
  rw [step_writeCmd h, runCommand_of_no_command hno, raise_acceptedWrite]
  rfl

/-- Settles O7: the fields of each command at their places. -/
theorem encodeIsTheFieldSum : Obligations.EncodeIsTheFieldSum := by
  unfold Obligations.EncodeIsTheFieldSum
  refine ⟨by decide, fun off wid => ?_, fun off wid => ?_, fun k => ?_, fun k => ?_⟩
  · rw [toNat_encode]
    change 0x04 + off.toNat * 64 + wid.toNat * 8192 + 0 * 524288 = _
    omega
  · rw [toNat_encode]
    change 0x05 + off.toNat * 64 + wid.toNat * 8192 + 0 * 524288 = _
    omega
  · rw [toNat_encode]
    change 0x0E + 0 * 64 + 0 * 8192 + k.toNat * 524288 = _
    omega
  · rw [toNat_encode]
    change 0x0F + 0 * 64 + 0 * 8192 + k.toNat * 524288 = _
    omega

/-- Settles O8: a legal word is the encoding of its command, and the illegal ones are evaluated. -/
theorem decodeSpecExampleWords : Obligations.DecodeSpecExampleWords := by
  unfold Obligations.DecodeSpecExampleWords
  exact ⟨decode_encode (i := .ext 5 15) rfl, decode_encode (i := .ins 5 15) rfl,
    decode_encode (i := .ext 0 3) rfl, decode_encode (i := .ext 3 2) rfl,
    decode_encode (i := .ins 3 2) rfl, decode_encode (i := .ext 20 4) rfl,
    decode_encode (i := .ext 22 8) rfl, decode_encode (i := .ext 0 32) rfl,
    decode_encode (i := .cver 4) rfl, decode_encode (i := .cver 3) rfl,
    decode_encode (i := .vkind 0) rfl, decode_encode (i := .vkind 2) rfl,
    decode_encode (i := .vkind 3) rfl, by decide, by decide, by decide, by decide⟩

end Sys2Proof.Proofs
end

/-! ## The bit fields: EXT, INS and CLRSYM (40_bitfield.md)

A field as a word and the laws of an insert come first, read off the stream bits; then what each
command does once the latch is clear; the obligations of the family follow them. -/

section
namespace Sys2Proof.Machine

/-! ### Symbols and their stream bits -/

theorem toList_getD_eq_symAt (m : Symbols) (i : Nat) : m.toList.getD i 0 = symAt m i := by
  rw [symAt, List.getD_eq_getElem?_getD, Vector.getElem?_toList]

/-- Bit `j` of `SYM[i]` is stream bit `6i + 5 - j` (00_scope.md R10). -/
theorem sbit_of_symbol_bit (m : Symbols) (i : Fin 20) {j : Nat} (hj : j < 6) :
    sbit m (6 * i.val + (5 - j)) = m[i].getLsbD j := by
  have hsym : (6 * i.val + (5 - j)) / 6 = i.val := by omega
  have hbit : 5 - (6 * i.val + (5 - j)) % 6 = j := by omega
  rw [sbit, hsym, hbit, symAt_of_lt m i.isLt]
  rfl

/-! ### The laws of a field (40_bitfield.md R103) -/

section
variable {m : Symbols} {o w : Nat}

/-- A field of at most 32 bits is a word with no bit lost. -/
theorem toNat_ofNat_fieldValue (hw : w ≤ 32) :
    (BitVec.ofNat 32 (fieldValue m o w)).toNat = fieldValue m o w :=
  (BitVec.toNat_ofNat _ _).trans <|
    Nat.mod_eq_of_lt ((fieldValue_lt m o w).trans_le (Nat.pow_le_pow_right (by decide) hw))

theorem getLsbD_ofNat_fieldValue (hw : w ≤ 32) (j : Nat) :
    (BitVec.ofNat 32 (fieldValue m o w)).getLsbD j = (decide (j < w) && sbit m (o + j)) := by
  rw [BitVec.getLsbD, toNat_ofNat_fieldValue hw, testBit_fieldValue]

/-- The field inserted is the field read back. -/
theorem fieldValue_insertField (v : Word) (h : o + w ≤ 120) :
    fieldValue (insertField m o v w) o w = v.toNat % 2 ^ w := by
  refine Nat.eq_of_testBit_eq fun j => ?_
  rw [testBit_fieldValue, Nat.testBit_mod_two_pow, sbit_insertField m o v w h]
  by_cases hj : j < w
  · have hin : o ≤ o + j ∧ o + j < o + w := by omega
    rw [if_pos hin, Nat.add_sub_cancel_left, BitVec.getLsbD]
  · simp [hj]

/-- The insert of a field's own value changes no symbol. -/
theorem insertField_fieldValue (hw : w ≤ 32) (h : o + w ≤ 120) :
    insertField m o (BitVec.ofNat 32 (fieldValue m o w)) w = m := by
  refine symbols_ext_sbit fun p _ => ?_
  rw [sbit_insertField _ _ _ _ h]
  split
  next hin =>
    have hj : p - o < w := by omega
    rw [getLsbD_ofNat_fieldValue hw, decide_eq_true hj, Bool.true_and, Nat.add_sub_cancel' hin.1]
  next => rfl

/-- No stream bit lies in both of two disjoint fields, so the order of their inserts is free. -/
theorem insertField_comm {o' w' : Nat} (v v' : Word) (h : o + w ≤ 120) (h' : o' + w' ≤ 120)
    (hdisj : o + w ≤ o' ∨ o' + w' ≤ o) :
    insertField (insertField m o v w) o' v' w' = insertField (insertField m o' v' w') o v w := by
  refine symbols_ext_sbit fun p _ => ?_
  simp only [sbit_insertField _ _ _ _ h, sbit_insertField _ _ _ _ h']
  by_cases hp : o ≤ p ∧ p < o + w
  · have hp' : ¬ (o' ≤ p ∧ p < o' + w') := by omega
    simp only [if_pos hp, if_neg hp']
  · simp only [if_neg hp]

end

/-! ### The commands under a clear latch -/

section
variable {s : State}

/-- In a legal state the active secret ends within the 120 stream bits. -/
theorem State.Legal.field_le {o w : Nat} (hs : s.Legal) (h : o + w ≤ 6 * s.len.toNat) :
    o + w ≤ 120 := by
  obtain ⟨⟨_, hlen⟩, _, _⟩ := hs
  omega

/-- Illegal operand fields raise ILLEGAL_CMD before the command's body is looked at. -/
theorem issue_illegal_of_clear {body : State} (h0 : s.err = 0) :
    issue false s body = s.setErr ErrCode.illegalCmd.code := by
  rcases issue_cases false s body with ⟨hne, _⟩ | ⟨_, _, h⟩ | ⟨_, hl, _⟩
  · exact absurd h0 hne
  · exact h
  · cases hl

/-- A checked command whose fields are legal: its check alone decides. -/
theorem issue_check_of_clear {c : Prop} [Decidable c] {legal : Bool} {e : ErrCode} {body : State}
    (h0 : s.err = 0) (hl : legal = true) :
    issue legal s (if c then body else raise e s) = if c then body else s.setErr e.code := by
  rw [hl, issue_of_clear h0, raise_of_clear h0]

theorem exec_clrsym_of_clear (h0 : s.err = 0) :
    exec .clrsym s = .next (s.setSyms (Vector.replicate 20 0)) :=
  congrArg Host.Outcome.next (issue_of_clear h0)

variable {off : BitVec 7} {wid : BitVec 6}

theorem exec_ext_of_clear (h0 : s.err = 0) (hw : wid.toNat ≤ 32) :
    exec (.ext off wid) s = .next (if off.toNat + wid.toNat ≤ 6 * s.len.toNat
      then s.setVal (BitVec.ofNat 32 (fieldValue s.sym off.toNat wid.toNat))
      else s.setErr ErrCode.range.code) := by
  have hexec : exec (.ext off wid) s = execExt off wid s := rfl
  rw [hexec, execExt, issue_check_of_clear h0 (legalWidth_iff.mpr hw)]
  simp only [fieldFits_iff]

theorem exec_ins_of_clear (h0 : s.err = 0) (hw : wid.toNat ≤ 32) :
    exec (.ins off wid) s = .next (if off.toNat + wid.toNat ≤ 6 * s.len.toNat
      then s.setSyms (insertField s.sym off.toNat s.val wid.toNat)
      else s.setErr ErrCode.range.code) := by
  have hexec : exec (.ins off wid) s = execIns off wid s := rfl
  rw [hexec, execIns, issue_check_of_clear h0 (legalWidth_iff.mpr hw)]
  simp only [fieldFits_iff]

/-- EXT of a field inside the active secret (40_bitfield.md R100). -/
theorem exec_ext_of_fits (h0 : s.err = 0) (hw : wid.toNat ≤ 32)
    (hf : off.toNat + wid.toNat ≤ 6 * s.len.toNat) :
    exec (.ext off wid) s =
      .next (s.setVal (BitVec.ofNat 32 (fieldValue s.sym off.toNat wid.toNat))) := by
  rw [exec_ext_of_clear h0 hw, if_pos hf]

/-- INS of a field inside the active secret (40_bitfield.md R101). -/
theorem exec_ins_of_fits (h0 : s.err = 0) (hw : wid.toNat ≤ 32)
    (hf : off.toNat + wid.toNat ≤ 6 * s.len.toNat) :
    exec (.ins off wid) s =
      .next (s.setSyms (insertField s.sym off.toNat s.val wid.toNat)) := by
  rw [exec_ins_of_clear h0 hw, if_pos hf]

/-- INS where VAL is the field's own value changes nothing (40_bitfield.md R103). -/
theorem exec_ins_of_val_eq_field (hs : s.Legal) (h0 : s.err = 0) (hw : wid.toNat ≤ 32)
    (hf : off.toNat + wid.toNat ≤ 6 * s.len.toNat)
    (hv : s.val = BitVec.ofNat 32 (fieldValue s.sym off.toNat wid.toNat)) :
    exec (.ins off wid) s = .next s := by
  have hsym : insertField s.sym off.toNat s.val wid.toNat = s.sym := by
    rw [hv, insertField_fieldValue hw (hs.field_le hf)]
  rw [exec_ins_of_fits h0 hw hf, hsym, State.setSyms_self]

/-- All VKIND can do under a clear latch: nothing, ILLEGAL_CMD or WRONG_KIND
(42_checksum.md R133). -/
theorem exec_vkind_cases {k : BitVec 3} {t : State} (h0 : s.err = 0)
    (h : exec (.vkind k) s = .next t) :
    t = s ∨ t = s.setErr ErrCode.illegalCmd.code ∨ t = s.setErr ErrCode.wrongKind.code := by
  have ht : issue (legalKind k) s
      (if fieldValue s.sym 3 2 = k.toNat then s else raise .wrongKind s) = t := next_inj.mp h
  cases hk : legalKind k with
  | false =>
    rw [hk, issue_illegal_of_clear h0] at ht
    exact .inr (.inl ht.symm)
  | true =>
    rw [issue_check_of_clear h0 hk] at ht
    split at ht
    · exact .inl ht.symm
    · exact .inr (.inr ht.symm)

end

end Sys2Proof.Machine
end

section
namespace Sys2Proof.Proofs
open Sys2Proof.Machine

/-! ### The obligations of the family of the bit fields -/

/-- Settles O17: the check of EXT and INS fails past the active secret, and VKIND's two errors are
others. -/
theorem rangeChecksStreamAccess : Obligations.RangeChecksStreamAccess := by
  unfold Obligations.RangeChecksStreamAccess
  refine ⟨fun off wid s h0 hw hover => ?_, fun off wid hw => ?_, fun k s t h0 h => ?_⟩
  · rw [exec_ext_of_clear h0 hw, exec_ins_of_clear h0 hw, if_neg (Nat.not_le.mpr hover),
      if_neg (Nat.not_le.mpr hover)]
    exact ⟨rfl, rfl⟩
  · have hoff := off.isLt
    omega
  · rcases exec_vkind_cases h0 h with rfl | rfl | rfl
    · rw [h0]; decide
    · rw [State.setErr_err]; decide
    · rw [State.setErr_err]; decide

/-- Settles O18: the bits of VAL are those of the field's value. -/
theorem extReadsTheFieldBits : Obligations.ExtReadsTheFieldBits := by
  unfold Obligations.ExtReadsTheFieldBits
  intro off wid s h0 hw hf
  refine ⟨_, exec_ext_of_fits h0 hw hf, rfl, fun j _ => ?_⟩
  rw [State.setVal_val, getLsbD_ofNat_fieldValue hw, toList_getD_eq_symAt]
  rfl

/-- Settles O19: each bit of a symbol is a stream bit, and the insert's effect on those is known. -/
theorem insWritesExactlyTheField : Obligations.InsWritesExactlyTheField := by
  unfold Obligations.InsWritesExactlyTheField
  intro off wid s hs h0 hw hf
  refine ⟨_, exec_ins_of_fits h0 hw hf, rfl, fun i j hj => ?_⟩
  rw [State.setSyms_sym, ← sbit_of_symbol_bit _ i hj, ← sbit_of_symbol_bit _ i hj,
    sbit_insertField _ _ _ _ (hs.field_le hf)]

/-- Settles O20, from the first law of a field: the insert leaves LEN, so EXT's check passes too. -/
theorem insThenExtReadsBack : Obligations.InsThenExtReadsBack := by
  unfold Obligations.InsThenExtReadsBack
  intro off wid s hs h0 hw hf
  refine ⟨_, _, exec_ins_of_fits h0 hw hf, exec_ext_of_fits h0 hw hf, ?_, rfl⟩
  rw [State.setVal_val, toNat_ofNat_fieldValue hw, State.setSyms_sym,
    fieldValue_insertField _ (hs.field_le hf)]

/-- Settles O21: INS writes the symbols that are there already, so the state stays. -/
theorem extThenInsRestores : Obligations.ExtThenInsRestores := by
  unfold Obligations.ExtThenInsRestores
  intro off wid s hs h0 hw hf
  exact ⟨_, exec_ext_of_fits h0 hw hf,
    exec_ins_of_val_eq_field ((legal_setVal s _).mpr hs) h0 hw hf rfl, rfl⟩

/-- Settles O22, from the commuting of the two inserts. -/
theorem disjointInsertsCommute : Obligations.DisjointInsertsCommute := by
  unfold Obligations.DisjointInsertsCommute
  intro o1 o2 w1 w2 v1 v2 s hs h0 hw1 hw2 hf1 hf2 hdisj
  exact ⟨_, _, _, _, exec_ins_of_fits h0 hw1 hf1, exec_ins_of_fits h0 hw2 hf2,
    exec_ins_of_fits h0 hw2 hf2, exec_ins_of_fits h0 hw1 hf1,
    insertField_comm v1 v2 (hs.field_le hf1) (hs.field_le hf2) hdisj⟩

/-- Settles O23: both parts lie inside the field, so all three EXT complete. -/
theorem extSplitsAtAnyBit : Obligations.ExtSplitsAtAnyBit := by
  unfold Obligations.ExtSplitsAtAnyBit
  intro o o2 w w1 w2 s h0 hw hsum ho2 hf
  have hw1 : w1.toNat ≤ 32 := by omega
  have hw2 : w2.toNat ≤ 32 := by omega
  refine ⟨_, _, _, exec_ext_of_fits h0 hw hf, exec_ext_of_fits h0 hw1 (by omega),
    exec_ext_of_fits h0 hw2 (by omega), ?_⟩
  simp only [State.setVal_val, toNat_ofNat_fieldValue hw, toNat_ofNat_fieldValue hw1,
    toNat_ofNat_fieldValue hw2]
  rw [hsum, ho2, fieldValue_add]

/-- Settles O24: the body of CLRSYM reads no LEN. -/
theorem clrsymClearsEverySymbol : Obligations.ClrsymClearsEverySymbol := by
  unfold Obligations.ClrsymClearsEverySymbol
  intro s h0
  exact ⟨_, exec_clrsym_of_clear h0, rfl, fun i => Vector.getElem_replicate i.isLt⟩

end Sys2Proof.Proofs
end

/-! ## The cipher: XCIPH (41_cipher.md)

The key and the keystream as numbers and the symbols of a cipher come first, with symbol 0 split into
its key and its enciphered low 3 bits; then the command once the latch is clear; the obligations of
the family follow them. -/

section
namespace Sys2Proof.Machine

/-! ### The key and its window of the keystream (41_cipher.md R120, R121) -/

theorem toNat_engineKey (m : Symbols) : (engineKey m).toNat = (symAt m 0).toNat / 8 := by
  rw [engineKey, BitVec.toNat_ushiftRight, Nat.shiftRight_eq_div_pow]

/-- The window of a secret of at most 20 symbols ends inside the table (41_cipher.md R121). -/
theorem window_index_lt (m : Symbols) {i : Nat} (hi : i < 20) :
    4 * (engineKey m).toNat + i < 48 := by
  have hsym := (symAt m 0).isLt
  rw [toNat_engineKey]
  omega

theorem keystream_of_lt (t : CipherTable) {n : Nat} (h : n < 48) : keystream t n = t ⟨n, h⟩ := by
  rw [keystream, dif_pos h]

theorem keystream_eq_ofNat (t : CipherTable) {n : Nat} (h : n < 48) :
    keystream t n = t (Fin.ofNat 48 n) := by
  rw [keystream_of_lt t h]
  exact congrArg t (Fin.ext (Nat.mod_eq_of_lt h).symm)

/-! ### The symbols of a cipher -/

/-- The top 3 bits of one symbol over the low 3 bits of another. -/
theorem toNat_top_or_low (x y : Symbol) :
    (((x >>> 3) <<< 3) ||| (y &&& 7)).toNat = 8 * (x.toNat / 8) + y.toNat % 8 := by
  have hx := x.isLt
  have htop : ((x >>> 3) <<< 3).toNat = (x.toNat / 8) <<< 3 := by
    rw [BitVec.toNat_shiftLeft, BitVec.toNat_ushiftRight, Nat.shiftRight_eq_div_pow,
      Nat.shiftLeft_eq]
    omega
  have hlow : (y &&& 7).toNat = y.toNat % 8 := Nat.and_two_pow_sub_one_eq_mod y.toNat 3
  have hlt : y.toNat % 8 < 2 ^ 3 := Nat.mod_lt _ (by decide)
  rw [BitVec.toNat_or, htop, hlow, ← Nat.shiftLeft_add_eq_or_of_lt hlt, Nat.shiftLeft_eq]
  omega

/-- The low 3 bits of an XOR are the XOR of the low 3 bits. -/
theorem toNat_xor_mod_eight (x y : Symbol) :
    (x ^^^ y).toNat % 8 = (x.toNat % 8) ^^^ (y.toNat % 8) := by
  rw [BitVec.toNat_xor]
  exact Nat.xor_mod_two_pow (n := 3)

section
variable (t : CipherTable) {n : Nat} (m : Symbols)

/-- Symbol 0 of a cipher: the key above, and below it the enciphered low 3 bits. -/
theorem toNat_symAt_zero_xcipher (hn : 0 < n) :
    (symAt (xcipher t n m) 0).toNat = 8 * ((symAt m 0).toNat / 8) +
      (symAt m 0 ^^^ keystream t (4 * (engineKey m).toNat)).toNat % 8 := by
  rw [symAt_xcipher t n m (by decide), if_pos rfl, if_pos hn]
  exact toNat_top_or_low _ _

theorem symAt_zero_xcipher (hn : 0 < n) :
    symAt (xcipher t n m) 0 = BitVec.ofNat 6 (8 * ((symAt m 0).toNat / 8) +
      (symAt m 0 ^^^ keystream t (4 * (engineKey m).toNat)).toNat % 8) := by
  rw [← toNat_symAt_zero_xcipher t m hn, BitVec.ofNat_toNat, BitVec.setWidth_eq]

/-- An active symbol other than symbol 0. -/
theorem symAt_xcipher_of_active {i : Nat} (hi : i < 20) (h0 : i ≠ 0) (hact : i < n) :
    symAt (xcipher t n m) i = symAt m i ^^^ keystream t (4 * (engineKey m).toNat + i) := by
  rw [symAt_xcipher t n m hi, if_neg h0, if_pos hact]

/-- Past the active symbols nothing changes; with none active, symbol 0 is put together again from
its own two parts. -/
theorem symAt_xcipher_of_inactive {i : Nat} (hi : i < 20) (hact : n ≤ i) :
    symAt (xcipher t n m) i = symAt m i := by
  rw [symAt_xcipher t n m hi]
  by_cases h0 : i = 0
  · subst h0
    rw [if_pos rfl, if_neg (Nat.not_lt.mpr hact)]
    apply BitVec.eq_of_toNat_eq
    rw [engineKey, toNat_top_or_low]
    exact Nat.div_add_mod _ 8
  · rw [if_neg h0, if_neg (Nat.not_lt.mpr hact)]

/-- The cipher undoes itself: it keeps the key, so both passes XOR with the same entries
(41_cipher.md R122). -/
theorem xcipher_xcipher : xcipher t n (xcipher t n m) = m := by
  refine symbols_ext fun i hi => ?_
  by_cases hact : i < n
  · by_cases h0 : i = 0
    · subst h0
      apply BitVec.eq_of_toNat_eq
      have hfirst := toNat_symAt_zero_xcipher t m hact
      have hsecond := toNat_symAt_zero_xcipher t (xcipher t n m) hact
      have hlow : (symAt (xcipher t n m) 0).toNat % 8 = ((symAt m 0).toNat % 8) ^^^
          ((keystream t (4 * (engineKey m).toNat)).toNat % 8) := by
        rw [← toNat_xor_mod_eight]
        omega
      rw [engineKey_xcipher, toNat_xor_mod_eight, hlow, Nat.xor_xor_cancel_right] at hsecond
      omega
    · rw [symAt_xcipher_of_active t _ hi h0 hact, symAt_xcipher_of_active t m hi h0 hact,
        engineKey_xcipher, BitVec.xor_assoc, BitVec.xor_self, BitVec.xor_zero]
  · rw [symAt_xcipher_of_inactive t _ hi (Nat.not_lt.mp hact),
      symAt_xcipher_of_inactive t m hi (Nat.not_lt.mp hact)]

end

/-- Two tables give the same cipher where they agree on the window of the key, and in the low 3 bits
on its first entry (41_cipher.md R121). -/
theorem xcipher_congr {t u : CipherTable} {n : Nat} {m : Symbols}
    (hrest : ∀ i, i < 20 → i ≠ 0 → i < n →
      keystream t (4 * (engineKey m).toNat + i) = keystream u (4 * (engineKey m).toNat + i))
    (hfirst : (keystream t (4 * (engineKey m).toNat)).toNat % 8 =
      (keystream u (4 * (engineKey m).toNat)).toNat % 8) :
    xcipher t n m = xcipher u n m := by
  refine symbols_ext fun i hi => ?_
  by_cases hact : i < n
  · by_cases h0 : i = 0
    · subst h0
      apply BitVec.eq_of_toNat_eq
      rw [toNat_symAt_zero_xcipher t m hact, toNat_symAt_zero_xcipher u m hact,
        toNat_xor_mod_eight, toNat_xor_mod_eight, hfirst]
    · rw [symAt_xcipher_of_active t m hi h0 hact, symAt_xcipher_of_active u m hi h0 hact,
        hrest i hi h0 hact]
  · rw [symAt_xcipher_of_inactive t m hi (Nat.not_lt.mp hact),
      symAt_xcipher_of_inactive u m hi (Nat.not_lt.mp hact)]

/-! ### The command under a clear latch -/

theorem exec_xciph_of_clear {s : State} (h0 : s.err = 0) :
    exec .xciph s =
      .next (s.setSyms (xcipher (cipherTable (activeRegion s)) (activeLen s) s.sym)) :=
  congrArg Host.Outcome.next (issue_of_clear h0)

theorem activeRegion_setSyms (s : State) (m : Symbols) :
    activeRegion (s.setSyms m) = activeRegion s := rfl

theorem activeLen_setSyms (s : State) (m : Symbols) : activeLen (s.setSyms m) = activeLen s := rfl

theorem cipherTable_activeRegion (s : State) : cipherTable (activeRegion s) =
    if s.region = 0 then Config.cipherUS else Config.cipherJP := by
  rw [activeRegion]
  split <;> rfl

end Sys2Proof.Machine
end

section
namespace Sys2Proof.Proofs
open Sys2Proof.Machine

/-! ### The obligations of the family of the cipher -/

/-- Settles O26: symbol 0, the other active symbols and the symbols past LEN, each by its own
equation; a legal LEN makes symbol 0 active. -/
theorem xciphEnciphersTheActiveSymbols : Obligations.XciphEnciphersTheActiveSymbols := by
  unfold Obligations.XciphEnciphersTheActiveSymbols
  intro s hs h0
  refine ⟨_, exec_xciph_of_clear h0, rfl, fun i => ?_⟩
  obtain ⟨⟨hlen, _⟩, _, _⟩ := hs
  have hkey : (engineKey s.sym).toNat = s.sym[0].toNat / 8 := toNat_engineKey s.sym
  have hlt := window_index_lt s.sym i.isLt
  rw [State.setSyms_sym, ← cipherTable_activeRegion, ← hkey]
  refine (symAt_of_lt _ i.isLt).symm.trans ?_
  split
  next hzero =>
    rw [hzero, symAt_zero_xcipher (n := activeLen s) _ _ hlen, keystream_eq_ofNat _ (by omega),
      toNat_engineKey]
    rfl
  next hpos =>
    split
    next hact =>
      rw [symAt_xcipher_of_active (n := activeLen s) _ _ i.isLt hpos hact,
        keystream_eq_ofNat _ hlt, symAt_of_lt _ i.isLt]
      rfl
    next hpast =>
      exact (symAt_xcipher_of_inactive (n := activeLen s) _ _ i.isLt (Nat.not_lt.mp hpast)).trans
        (symAt_of_lt _ i.isLt)

/-- Settles O27: the first XCIPH leaves ERR, REGION and LEN, so the second runs the same cipher. -/
theorem xciphIsAnInvolution : Obligations.XciphIsAnInvolution := by
  unfold Obligations.XciphIsAnInvolution
  intro s h0
  refine ⟨_, exec_xciph_of_clear h0, ?_, ?_⟩
  · have hclear : (s.setSyms (xcipher (cipherTable (activeRegion s)) (activeLen s) s.sym)).err = 0 :=
      (State.setSyms_err ..).trans h0
    rw [exec_xciph_of_clear hclear, activeRegion_setSyms, activeLen_setSyms, State.setSyms_sym,
      xcipher_xcipher, State.setSyms_setSyms, State.setSyms_self]
  · have hkey := congrArg BitVec.toNat
      (engineKey_xcipher (cipherTable (activeRegion s)) (activeLen s) s.sym)
    rwa [toNat_engineKey, toNat_engineKey] at hkey

/-- Settles O28: every entry that the cipher reads stands in the window, where the tables agree. -/
theorem xciphReadsOnlyItsWindow : Obligations.XciphReadsOnlyItsWindow := by
  unfold Obligations.XciphReadsOnlyItsWindow
  intro t u n m _ hrest hfirst
  have hkey : (engineKey m).toNat = m[0].toNat / 8 := toNat_engineKey m
  rw [← hkey] at hrest hfirst
  refine xcipher_congr (fun i hi h0 hact => ?_) ?_
  · have hlt := window_index_lt m hi
    rw [keystream_of_lt t hlt, keystream_of_lt u hlt]
    exact hrest _ (Nat.lt_add_of_pos_right (Nat.pos_of_ne_zero h0)) (Nat.add_lt_add_left hact _)
  · have hlt : 4 * (engineKey m).toNat < 48 := window_index_lt m (i := 0) (by decide)
    rw [keystream_of_lt t hlt, keystream_of_lt u hlt]
    exact hfirst _ rfl

end Sys2Proof.Proofs
end

/-! ## The checksum and the kind check: CSUM, CSTORE, CVER, VKIND (42_checksum.md)

The sum, the stored nibble and the discriminator as numbers come first; then what each command does
once the latch is clear; the obligations of the family follow them. -/

section
namespace Sys2Proof.Machine

/-! ### The sum of the symbols (42_checksum.md R130) -/

theorem sumFirst_eq_sum_take (m : Symbols) (n : Nat) :
    sumFirst m n = ((m.toList.take n).map BitVec.toNat).sum := by
  induction n with
  | zero => rfl
  | succ n ih =>
    rw [sumFirst, ih, List.take_add_one, List.map_append, List.sum_append, symAt,
      Vector.getElem?_toList]
    cases m[n]? <;> rfl

/-- A legal secret has a last symbol, and CSUM's sum leaves out that one alone. -/
theorem sumFirst_len {s : State} (hs : s.Legal) :
    sumFirst s.sym s.len.toNat =
      sumFirst s.sym (lastIndex s) + (symAt s.sym (lastIndex s)).toNat := by
  obtain ⟨⟨hlen, _⟩, _, _⟩ := hs
  have hsucc : s.len.toNat = lastIndex s + 1 := (Nat.sub_add_cancel hlen).symm
  rw [hsucc, sumFirst]

/-- The sum of the symbols before one does not read that one. -/
theorem sumFirst_putSym (m : Symbols) (n : Nat) (x : Symbol) :
    sumFirst (putSym m n x) n = sumFirst m n :=
  sumFirst_congr fun i hi => by rw [symAt_putSym, if_neg fun h => hi.ne' h.1]

/-! ### The last symbol (42_checksum.md R131) -/

@[simp] theorem lastIndex_setSyms (s : State) (m : Symbols) : lastIndex (s.setSyms m) = lastIndex s :=
  rfl

@[simp] theorem lastIndex_setSum (s : State) (v : BitVec 8) : lastIndex (s.setSum v) = lastIndex s :=
  rfl

theorem toList_getD_last (m : Symbols) (s : State) :
    m.toList.getD (s.len.toNat - 1) 0 = symAt m (lastIndex s) := toList_getD_eq_symAt m _

theorem set_eq_putSym (m : Symbols) {i : Nat} (hi : i < 20) (x : Symbol) :
    m.set i x = putSym m i x :=
  Vector.ext fun j hj => by rw [Vector.getElem_set, putSym, Vector.getElem_setIfInBounds hj]

theorem lastIndex_lt {s : State} (hs : s.Legal) : lastIndex s < 20 := by
  obtain ⟨⟨_, hlen⟩, _, _⟩ := hs
  rw [lastIndex]
  omega

theorem symAt_putSym_last {s : State} (hs : s.Legal) (x : Symbol) :
    symAt (putSym s.sym (lastIndex s) x) (lastIndex s) = x := by
  rw [symAt_putSym, if_pos ⟨rfl, lastIndex_lt hs⟩]

theorem lastIndex_eq_iff {s : State} (hs : s.Legal) (i : Nat) :
    lastIndex s = i ↔ i + 1 = s.len.toNat := by
  obtain ⟨⟨hlen, _⟩, _, _⟩ := hs
  rw [lastIndex]
  omega

/-- The mask 0x30 keeps bits 5:4 of a symbol in place. -/
theorem toNat_and_high_bits : ∀ x : Symbol, (x &&& 0x30).toNat = (x.toNat / 16) <<< 4 := by decide

/-- Bits 5:4 of the symbol over the low nibble of the sum. -/
theorem toNat_withNibble (x : Symbol) (sum : BitVec 8) :
    (withNibble x sum).toNat = 16 * (x.toNat / 16) + sum.toNat % 16 := by
  have hlow : (sum.setWidth 6 &&& 0x0F).toNat = sum.toNat % 16 :=
    (Nat.and_two_pow_sub_one_eq_mod (sum.toNat % 2 ^ 6) 4).trans
      (Nat.mod_mod_of_dvd _ (by decide))
  have hlt : sum.toNat % 16 < 2 ^ 4 := Nat.mod_lt _ (by decide)
  rw [withNibble, BitVec.toNat_or, toNat_and_high_bits, hlow,
    ← Nat.shiftLeft_add_eq_or_of_lt hlt, Nat.shiftLeft_eq]
  omega

/-! ### The discriminator (42_checksum.md R133) -/

/-- The field (3,2) is bits 2 and 1 of `SYM[0]`, the first stream bit least significant. -/
theorem fieldValue_discriminator (m : Symbols) :
    fieldValue m 3 2 = m[0].toNat / 4 % 2 + 2 * (m[0].toNat / 2 % 2) := by
  have hbit2 : sbit m 3 = m[0].toNat.testBit 2 := sbit_of_symbol_bit m 0 (j := 2) (by decide)
  have hbit1 : sbit m 4 = m[0].toNat.testBit 1 := sbit_of_symbol_bit m 0 (j := 1) (by decide)
  simp only [fieldValue, Nat.reduceAdd, Nat.add_zero, hbit2, hbit1, Nat.toNat_testBit]
  omega

/-! ### The commands under a clear latch -/

section
variable {s : State}

theorem exec_csum_of_clear (h0 : s.err = 0) :
    exec .csum s = .next (s.setSum (BitVec.ofNat 8 (sumFirst s.sym (lastIndex s)))) :=
  congrArg Host.Outcome.next (issue_of_clear h0)

/-- The SUM of CSUM is the same for every value of the last symbol. -/
theorem exec_csum_of_last_changed (h0 : s.err = 0) (x : Symbol) :
    exec .csum (s.setSyms (putSym s.sym (lastIndex s) x)) =
      .next ((s.setSyms (putSym s.sym (lastIndex s) x)).setSum
        (BitVec.ofNat 8 (sumFirst s.sym (lastIndex s)))) := by
  rw [exec_csum_of_clear ((State.setSyms_err ..).trans h0), State.setSyms_sym, lastIndex_setSyms,
    sumFirst_putSym]

theorem exec_cstore_of_clear (h0 : s.err = 0) :
    exec .cstore s = .next (s.setSyms
      (putSym s.sym (lastIndex s) (withNibble (symAt s.sym (lastIndex s)) s.sum))) :=
  congrArg Host.Outcome.next (issue_of_clear h0)

variable {k : BitVec 3}

theorem legalCheckWidth_iff : legalCheckWidth k = true ↔ 1 ≤ k.toNat ∧ k.toNat ≤ 4 :=
  decide_eq_true_iff

theorem legalKind_iff : legalKind k = true ↔ k.toNat ≤ 3 := decide_eq_true_iff

theorem checksumMatches_iff {w : Nat} : checksumMatches w s = true ↔
    s.sum.toNat % 2 ^ w = (symAt s.sym (lastIndex s)).toNat % 2 ^ w :=
  decide_eq_true_iff

theorem exec_cver_of_clear (h0 : s.err = 0) (hk : 1 ≤ k.toNat ∧ k.toNat ≤ 4) :
    exec (.cver k) s = .next
      (if s.sum.toNat % 2 ^ k.toNat = (symAt s.sym (lastIndex s)).toNat % 2 ^ k.toNat
      then s else s.setErr ErrCode.checksumMismatch.code) := by
  have hexec : exec (.cver k) s = execCver k s := rfl
  rw [hexec, execCver, issue_check_of_clear h0 (legalCheckWidth_iff.mpr hk)]
  simp only [checksumMatches_iff]

/-- CVER passes exactly where the low bits agree: a raised error would show in ERR. -/
theorem exec_cver_eq_self_iff (h0 : s.err = 0) (hk : 1 ≤ k.toNat ∧ k.toNat ≤ 4) :
    exec (.cver k) s = .next s ↔
      s.sum.toNat % 2 ^ k.toNat = (symAt s.sym (lastIndex s)).toNat % 2 ^ k.toNat := by
  rw [exec_cver_of_clear h0 hk, next_inj]
  refine ⟨fun h => ?_, fun h => if_pos h⟩
  by_contra hne
  rw [if_neg hne] at h
  have herr := congrArg State.err h
  rw [State.setErr_err, h0] at herr
  exact absurd herr (by decide)

theorem exec_vkind_of_clear (h0 : s.err = 0) (hk : k.toNat ≤ 3) :
    exec (.vkind k) s = .next (if fieldValue s.sym 3 2 = k.toNat
      then s else s.setErr ErrCode.wrongKind.code) := by
  have hexec : exec (.vkind k) s = execVkind k s := rfl
  rw [hexec, execVkind, issue_check_of_clear h0 (legalKind_iff.mpr hk)]

end

end Sys2Proof.Machine
end

section
namespace Sys2Proof.Proofs
open Sys2Proof.Machine

/-! ### The obligations of the family of the checksum -/

/-- Settles O29: the model's sum, symbol by symbol, is the sum of the list. -/
theorem csumSumsAllButTheLast : Obligations.CsumSumsAllButTheLast := by
  unfold Obligations.CsumSumsAllButTheLast
  intro s h0
  refine ⟨_, exec_csum_of_clear h0, rfl, ?_⟩
  rw [State.setSum_sum, BitVec.toNat_ofNat, sumFirst_eq_sum_take]
  rfl

/-- Settles O30: one symbol is written, and its two parts are known as numbers. -/
theorem cstoreStoresTheNibble : Obligations.CstoreStoresTheNibble := by
  unfold Obligations.CstoreStoresTheNibble
  intro s hs h0
  refine ⟨_, exec_cstore_of_clear h0, rfl, fun i => ?_⟩
  have hnew := symAt_putSym s.sym (lastIndex s) i (withNibble (symAt s.sym (lastIndex s)) s.sum)
  simp only [symAt_of_lt _ i.isLt, lastIndex_eq_iff hs, i.isLt, and_true] at hnew
  rw [State.setSyms_sym, Fin.getElem_fin, hnew]
  split
  next hlast =>
    rw [toNat_withNibble, (lastIndex_eq_iff hs i).mpr hlast, symAt_of_lt _ i.isLt]
    rfl
  next => rfl

/-- Settles O31: the last symbol is a multiple of 16, so the sum without it has the low nibble of the
sum with it. -/
theorem storedNibbleIsTheSumOfAllSymbols : Obligations.StoredNibbleIsTheSumOfAllSymbols := by
  unfold Obligations.StoredNibbleIsTheSumOfAllSymbols
  intro s hs h0 hlow
  refine ⟨_, _, exec_csum_of_clear h0, exec_cstore_of_clear h0, ?_⟩
  rw [toList_getD_last] at hlow
  rw [toList_getD_last, toList_getD_last, ← sumFirst_eq_sum_take, sumFirst_len hs]
  simp only [State.setSyms_sym, State.setSum_sym, State.setSum_sum, lastIndex_setSum,
    symAt_putSym_last hs, toNat_withNibble, BitVec.toNat_ofNat]
  omega

/-- Settles O32: the check of CVER alone decides. -/
theorem cverComparesTheLowBits : Obligations.CverComparesTheLowBits := by
  unfold Obligations.CverComparesTheLowBits
  intro k s _ h0 hlo hhi
  rw [toList_getD_last, exec_cver_of_clear h0 ⟨hlo, hhi⟩]
  exact ⟨fun h => congrArg _ (if_pos h), fun h => congrArg _ (if_neg h)⟩

/-- Settles O33: the field (3,2) that VKIND reads is bits 2 and 1 of symbol 0. -/
theorem vkindChecksTheDiscriminator : Obligations.VkindChecksTheDiscriminator := by
  unfold Obligations.VkindChecksTheDiscriminator
  intro k s h0 hk
  rw [exec_vkind_of_clear h0 hk, fieldValue_discriminator]
  exact ⟨fun h => congrArg _ (if_pos h), fun h => congrArg _ (if_neg h)⟩

/-- Settles O34: both secrets have the same SUM, which agrees with the old last symbol and so not
with the new one. -/
theorem lastSymbolChangeIsDetected : Obligations.LastSymbolChangeIsDetected := by
  unfold Obligations.LastSymbolChangeIsDetected
  intro k x s t h hs h0 hlo hhi hsum hpass hchange
  obtain rfl := next_inj.mp ((exec_csum_of_clear h0).symm.trans hsum)
  have hagree := (exec_cver_eq_self_iff ((State.setSum_err ..).trans h0) ⟨hlo, hhi⟩).mp hpass
  rw [State.setSum_sum, State.setSum_sym, lastIndex_setSum] at hagree
  have hold : s.sym[s.len.toNat - 1] = symAt s.sym (lastIndex s) := (symAt_of_lt _ h).symm
  rw [hold, ← hagree] at hchange
  rw [set_eq_putSym]
  refine ⟨_, exec_csum_of_last_changed h0 x, ?_⟩
  rw [exec_cver_of_clear (((State.setSum_err ..).trans (State.setSyms_err ..)).trans h0) ⟨hlo, hhi⟩,
    State.setSum_sum, State.setSum_sym, State.setSyms_sym, lastIndex_setSum, lastIndex_setSyms,
    symAt_putSym_last hs, if_neg hchange.symm]
  rfl

end Sys2Proof.Proofs
end

/-! ## The look-up table: LUTF, LUTR, FMT, PARSE (43_lut.md)

The alphabets by symbol number, the characters of a grouped text by position and the laws of a parse
come first; then what each command does once the latch is clear; the obligations of the family
follow them. -/

section
namespace Sys2Proof.Machine

/-! ### Characters that are not printable (43_lut.md R150, R165) -/

theorem isPrintable_eq_false_of_range {r : Nat × Nat} {c : Nat} (hr : r ∈ nonPrintingRanges)
    (hlo : r.1 ≤ c) (hhi : c ≤ r.2) : isPrintable c = false := by
  have hin : (nonPrintingRanges.all fun r => !(decide (r.1 ≤ c) && decide (c ≤ r.2))) = false :=
    List.all_eq_false.mpr ⟨r, hr, by simp [hlo, hhi]⟩
  rw [isPrintable, hin, Bool.and_false]

/-- Controls and white space are not printable: the three runs of them each lie in one of the
model's ranges, and the single characters are looked at one by one (log entry 8). -/
theorem isPrintable_eq_false_of_control_or_white_space {c : Nat}
    (hc : c ≤ 0x1F ∨ (0x7F ≤ c ∧ c ≤ 0x9F) ∨ (0x2000 ≤ c ∧ c ≤ 0x200A) ∨
      c ∈ [0xA0, 0x1680, 0x2028, 0x2029, 0x202F, 0x205F, 0x3000]) : isPrintable c = false := by
  have hsingle : ∀ d ∈ [0xA0, 0x1680, 0x2028, 0x2029, 0x202F, 0x205F, 0x3000],
      isPrintable d = false := by decide
  rcases hc with hc | ⟨hlo, hhi⟩ | ⟨hlo, hhi⟩ | hmem
  · exact isPrintable_eq_false_of_range (r := (0x0000, 0x0020)) (by decide) c.zero_le (by omega)
  · exact isPrintable_eq_false_of_range (r := (0x007F, 0x00A0)) (by decide) hlo (by omega)
  · exact isPrintable_eq_false_of_range (r := (0x2000, 0x200F)) (by decide) hlo (by omega)
  · exact hsingle c hmem

theorem symbolOf_of_not_printable (a : Alphabet) {c : Nat} (hc : isPrintable c = false) :
    symbolOf a c = none := by
  simp [symbolOf, hc]

/-! ### The alphabets, indexed by `Fin 64` -/

theorem alphabet_activeRegion (s : State) : alphabet (activeRegion s) =
    if s.region = 0 then alphaUS else alphaJP := by
  rw [activeRegion]
  split <;> rfl

theorem glyph_eq_ofNat (a : Alphabet) (v : Symbol) : glyph a v = a (Fin.ofNat 64 v.toNat) :=
  congrArg a (Fin.ofNat_val_eq_self v.toFin).symm

/-- A claim about every character of an alphabet, by symbol or by number. -/
theorem forall_glyph {a : Alphabet} {p : CodePoint → Prop} :
    (∀ v, p (glyph a v)) ↔ ∀ v : Fin 64, p (a v) :=
  ⟨fun h v => h (.ofFin v), fun h v => h v.toFin⟩

theorem map_glyph_ofFin (a : Alphabet) (vs : List (Fin 64)) :
    (vs.map BitVec.ofFin).map (glyph a) = vs.map a :=
  List.map_map

theorem alphaUS_of_settled {v : Fin 64} (hv : v ∈ settledSymbols) :
    alphaUS v = alphaUSReference v := if_pos hv

/-! ### The grouped text by position (43_lut.md R162) -/

section
variable (a : Alphabet) (m : Symbols)

/-- What stands before symbol `i`'s character: a space where `i` is a positive multiple of 5. -/
def separator (i : Nat) : List CodePoint := if 0 < i ∧ i % 5 = 0 then [0x20] else []

theorem groupedText_succ (n : Nat) : groupedText a m (n + 1) =
    groupedText a m n ++ separator n ++ [glyph a (symAt m n)] := rfl

theorem length_groupedText_separator (i : Nat) :
    (groupedText a m i ++ separator i).length = i + i / 5 := by
  have hsucc := length_groupedText a m (i + 1)
  rw [groupedText_succ, List.length_append, List.length_singleton] at hsucc
  omega

/-- The text of more symbols begins with the text of fewer. -/
theorem getElem?_groupedText_of_le {k n j : Nat} (hk : k ≤ n)
    (hj : j < (groupedText a m k).length) :
    (groupedText a m n)[j]? = (groupedText a m k)[j]? := by
  induction n, hk using Nat.le_induction with
  | base => rfl
  | succ n hkn ih =>
    have hjn : j < (groupedText a m n).length := by
      rw [length_groupedText] at hj ⊢
      omega
    rw [groupedText_succ, List.append_assoc, List.getElem?_append_left hjn, ih]

theorem getElem?_groupedText_char {i n : Nat} (hi : i < n) :
    (groupedText a m n)[i + i / 5]? = some (glyph a (symAt m i)) := by
  have hlen := length_groupedText_separator a m i
  have hlt : i + i / 5 < (groupedText a m (i + 1)).length := by
    rw [length_groupedText]
    omega
  rw [getElem?_groupedText_of_le a m hi hlt, groupedText_succ, ← hlen, List.getElem?_concat_length]

theorem getElem?_groupedText_space {i n : Nat} (hpos : 0 < i) (hi : i < n) (hmod : i % 5 = 0) :
    (groupedText a m n)[i + i / 5 - 1]? = some 0x20 := by
  have hlen : (groupedText a m i).length = i + i / 5 - 1 := by
    rw [length_groupedText]
    omega
  have hsep : separator i = [0x20] := if_pos ⟨hpos, hmod⟩
  have hlt : i + i / 5 - 1 < (groupedText a m (i + 1)).length := by
    rw [length_groupedText]
    omega
  rw [getElem?_groupedText_of_le a m hi hlt, groupedText_succ, hsep, List.append_assoc, ← hlen,
    List.getElem?_append_right le_rfl, Nat.sub_self]
  rfl

end

/-! ### Writing a text and loading symbols -/

theorem getD_toList_writeText (old : Text) {cs : List CodePoint} {j : Nat} {c : CodePoint}
    (hj : j < 32) (hc : cs[j]? = some c) : (writeText old cs).toList.getD j 0 = c := by
  rw [List.getD_eq_getElem?_getD, Vector.getElem?_toList, Vector.getElem?_eq_getElem hj,
    Option.getD_some, getElem_writeText old cs hj, List.getD_eq_getElem?_getD, hc, Option.getD_some]

/-- Writing a text again changes nothing. -/
theorem writeText_writeText (old : Text) (cs : List CodePoint) :
    writeText (writeText old cs) cs = writeText old cs := by
  apply Vector.ext
  intro j hj
  rw [getElem_writeText _ _ hj, getElem_writeText _ _ hj]
  by_cases hlen : j < cs.length
  · rw [List.getD_eq_getElem _ _ hlen, List.getD_eq_getElem _ _ hlen]
  · have hpast := Nat.not_lt.mp hlen
    rw [List.getD_eq_default _ _ hpast, List.getD_eq_default _ _ hpast]

/-- Loading a buffer's own first symbols changes nothing. -/
theorem loadSyms_self (m : Symbols) (n : Nat) : loadSyms m ((List.range n).map (symAt m)) = m := by
  refine symbols_ext fun i hi => ?_
  rw [symAt_loadSyms _ _ hi]
  by_cases hin : i < n
  · simp [List.getD_eq_getElem?_getD, List.getElem?_range hin]
  · exact List.getD_eq_default _ _ (by simpa using hin)

/-! ### The commands under a clear latch -/

section
variable {s : State}

theorem exec_lutf_of_clear (h0 : s.err = 0) :
    exec .lutf s = .next (if s.val.toNat ≤ 63
      then s.setVal ((glyph (alphabet (activeRegion s)) (s.val.setWidth 6)).setWidth 32)
      else s.setErr ErrCode.invalidSymbol.code) :=
  congrArg Host.Outcome.next (issue_check_of_clear h0 rfl)

/-- LUTR on a character of the alphabet (43_lut.md R161). -/
theorem exec_lutr_of_glyph (h0 : s.err = 0) {v : Symbol}
    (hv : (glyph (alphabet (activeRegion s)) v).toNat = s.val.toNat) :
    exec .lutr s = .next (s.setVal (v.setWidth 32)) := by
  have hexec : exec .lutr s = execLutr s := rfl
  rw [hexec, execLutr, issue_of_clear h0, ← hv, symbolOf_glyph]

/-- LUTR on a number that is no character of the alphabet (43_lut.md R161). -/
theorem exec_lutr_of_none (h0 : s.err = 0)
    (hnone : symbolOf (alphabet (activeRegion s)) s.val.toNat = none) :
    exec .lutr s = .next (s.setErr ErrCode.invalidSymbol.code) := by
  have hexec : exec .lutr s = execLutr s := rfl
  rw [hexec, execLutr, issue_of_clear h0, hnone, raise_of_clear h0]

/-- The text that FMT writes (43_lut.md R162). -/
def fmtText (s : State) : List CodePoint :=
  groupedText (alphabet (activeRegion s)) s.sym (activeLen s)

/-- The state after FMT (43_lut.md R162, R163). -/
def afterFmt (s : State) : State :=
  (s.setTxt (writeText s.txt (fmtText s))).setTlen (BitVec.ofNat 6 (fmtText s).length)

theorem exec_fmt_of_clear (h0 : s.err = 0) : exec .fmt s = .next (afterFmt s) :=
  congrArg Host.Outcome.next (issue_of_clear h0)

theorem length_fmtText (s : State) :
    (fmtText s).length = s.len.toNat + (s.len.toNat - 1) / 5 := length_groupedText _ _ _

@[simp] theorem afterFmt_txt (s : State) : (afterFmt s).txt = writeText s.txt (fmtText s) := rfl
@[simp] theorem afterFmt_tlen (s : State) :
    (afterFmt s).tlen = BitVec.ofNat 6 (fmtText s).length := rfl
@[simp] theorem afterFmt_sym (s : State) : (afterFmt s).sym = s.sym := by simp [afterFmt]
@[simp] theorem afterFmt_len (s : State) : (afterFmt s).len = s.len := by simp [afterFmt]
@[simp] theorem afterFmt_region (s : State) : (afterFmt s).region = s.region := by simp [afterFmt]
@[simp] theorem afterFmt_err (s : State) : (afterFmt s).err = s.err := by simp [afterFmt]
@[simp] theorem activeRegion_afterFmt (s : State) : activeRegion (afterFmt s) = activeRegion s := by
  simp [activeRegion]
@[simp] theorem fmtText_afterFmt (s : State) : fmtText (afterFmt s) = fmtText s := by
  simp [fmtText, activeLen]

/-- `TLEN` holds the length of a legal secret's text with no wrap (43_lut.md R163). -/
theorem toNat_tlen_afterFmt (hs : s.Legal) : (afterFmt s).tlen.toNat = (fmtText s).length := by
  obtain ⟨⟨_, hlen⟩, _, _⟩ := hs
  rw [afterFmt_tlen, BitVec.toNat_ofNat, length_fmtText]
  omega

theorem afterFmt_afterFmt (s : State) : afterFmt (afterFmt s) = afterFmt s := by
  have htxt : (afterFmt s).txt = writeText (afterFmt s).txt (fmtText s) := by
    rw [afterFmt_txt, writeText_writeText]
  rw [afterFmt, fmtText_afterFmt, State.setTxt_of_eq htxt, State.setTlen_of_eq (afterFmt_tlen s)]

/-- PARSE after FMT reads the text that FMT wrote. -/
theorem activeText_afterFmt (hs : s.Legal) : activeText (afterFmt s) = fmtText s := by
  have htlen := toNat_tlen_afterFmt hs
  obtain ⟨⟨_, hlen⟩, _, _⟩ := hs
  have hle : (fmtText s).length ≤ 23 := length_groupedText_le _ _ hlen
  rw [activeText, htlen, afterFmt_txt, take_writeText _ _ (by omega)]

/-- PARSE of a text with a character that is no space and not of the alphabet (43_lut.md R166). -/
theorem exec_parse_of_bad (h0 : s.err = 0) {c : CodePoint} (hc : c ∈ activeText s) (hsp : c ≠ 0x20)
    (hbad : ∀ v, glyph (alphabet (activeRegion s)) v ≠ c) :
    exec .parse s = .next (s.setErr ErrCode.invalidSymbol.code) := by
  have hexec : exec .parse s = execParse s := rfl
  have hparse := (parseText_eq_none (activeRegion s) (activeText s)).mpr ⟨c, hc, hsp, hbad⟩
  rw [hexec, execParse, issue_of_clear h0, hparse, raise_of_clear h0]

/-- PARSE of a text of symbols and spaces: the count alone decides (43_lut.md R165). -/
theorem exec_parse_of_some (h0 : s.err = 0) {vs : List Symbol}
    (hvs : parseText (alphabet (activeRegion s)) (activeText s) = some vs) :
    exec .parse s = .next (if vs.length = s.len.toNat then s.setSyms (loadSyms s.sym vs)
      else s.setErr ErrCode.malformedLength.code) := by
  have hexec : exec .parse s = execParse s := rfl
  rw [hexec, execParse, issue_of_clear h0, hvs]
  simp only [raise_of_clear h0]
  rfl

/-- The text's characters but the spaces, as the characters of symbol numbers: what it parses to. -/
theorem parseText_activeText {vs : List (Fin 64)}
    (hvs : vs.map (if s.region = 0 then alphaUS else alphaJP) =
      (s.txt.toList.take s.tlen.toNat).filter (fun c => c ≠ 0x20)) :
    parseText (alphabet (activeRegion s)) (activeText s) = some (vs.map BitVec.ofFin) := by
  rw [parseText_eq_some, map_glyph_ofFin, alphabet_activeRegion]
  exact hvs

end

end Sys2Proof.Machine
end

section
namespace Sys2Proof.Proofs
open Sys2Proof.Machine

/-! ### The obligations of the family of the look-up table -/

/-- Settles O35: the low 6 bits of VAL are its value modulo 64, and so is the statement's index. -/
theorem lutfGivesTheCharacter : Obligations.LutfGivesTheCharacter := by
  unfold Obligations.LutfGivesTheCharacter
  intro s h0
  rw [exec_lutf_of_clear h0, ← alphabet_activeRegion, BitVec.ofNat_toNat]
  refine ⟨fun hle => ?_, fun hgt => congrArg _ (if_neg (Nat.not_le.mpr hgt))⟩
  rw [if_pos hle, ← BitVec.ofNat_toNat 6]
  rfl

/-- Settles O36: the inverse map finds the symbol of each character, and none of other numbers. -/
theorem lutrGivesTheSymbol : Obligations.LutrGivesTheSymbol := by
  unfold Obligations.LutrGivesTheSymbol
  intro s h0
  rw [← alphabet_activeRegion]
  refine ⟨fun v hv => ?_, fun hnone => ?_⟩
  · rw [exec_lutr_of_glyph (v := .ofFin v) h0 hv, ← BitVec.ofNat_toNat]
    rfl
  · have hno : ∀ v, (glyph (alphabet (activeRegion s)) v).toNat ≠ s.val.toNat :=
      (forall_glyph (p := fun c => c.toNat ≠ s.val.toNat)).mpr hnone
    exact exec_lutr_of_none h0 ((symbolOf_eq_none _ _).mpr hno)

/-- Settles O37: LUTR finds the symbol whose character LUTF gave, and a VAL of at most 63 is that
symbol. -/
theorem lutfThenLutrReturns : Obligations.LutfThenLutrReturns := by
  unfold Obligations.LutfThenLutrReturns
  intro s h0 hle
  have hsymbol : s.val = (s.val.setWidth 6).setWidth 32 := by bv_omega
  refine ⟨_, (exec_lutf_of_clear h0).trans (congrArg _ (if_pos hle)), ?_⟩
  rw [exec_lutr_of_glyph ((State.setVal_err ..).trans h0) (v := s.val.setWidth 6),
    State.setVal_setVal, State.setVal_of_eq hsymbol]
  rw [State.setVal_val, BitVec.toNat_setWidth_of_le (by decide)]
  rfl

/-- Settles O39: an alphabet is injective, and its characters are printable. -/
theorem alphabetsAreDistinctAndSpaceless : Obligations.AlphabetsAreDistinctAndSpaceless := by
  unfold Obligations.AlphabetsAreDistinctAndSpaceless
  intro r u v
  exact ⟨glyph_ne_space r (.ofFin u), glyph_ne_zero r (.ofFin u), fun h => alphabet_injective r h⟩

/-- Settles O40. -/
theorem fmtLengthFormula : Obligations.FmtLengthFormula := by
  unfold Obligations.FmtLengthFormula
  intro s hs h0
  have htlen := (toNat_tlen_afterFmt hs).trans (length_fmtText s)
  obtain ⟨⟨_, hlen⟩, _, _⟩ := hs
  refine ⟨afterFmt s, exec_fmt_of_clear h0, htlen, ?_⟩
  omega

/-- Settles O41: each position of the text by its own law; the positions past it keep TXT. -/
theorem fmtWritesGroupedText : Obligations.FmtWritesGroupedText := by
  unfold Obligations.FmtWritesGroupedText
  intro s hs h0
  have htlen := toNat_tlen_afterFmt hs
  have ⟨⟨_, hlen⟩, _, _⟩ := hs
  rw [← alphabet_activeRegion]
  refine ⟨afterFmt s, exec_fmt_of_clear h0, rfl, htlen.trans (length_fmtText s), fun i hi => ?_,
    fun i hpos hi hmod => ?_, fun j hj => ?_⟩
  · have hsym : symAt s.sym i = s.sym[i] := symAt_of_lt _ i.isLt
    rw [← hsym, ← glyph_eq_ofNat (alphabet (activeRegion s))]
    exact getD_toList_writeText _ (by omega) (getElem?_groupedText_char _ _ hi)
  · exact getD_toList_writeText _ (by omega) (getElem?_groupedText_space _ _ hpos hi hmod)
  · rw [htlen] at hj
    exact (getElem_writeText s.txt (fmtText s) j.isLt).trans (List.getD_eq_default _ _ hj)

/-- Settles O42: the text that FMT wrote parses to the secret's own symbols, and FMT writes it
again. -/
theorem fmtAndParseRoundTrip : Obligations.FmtAndParseRoundTrip := by
  unfold Obligations.FmtAndParseRoundTrip
  intro s hs h0
  have hclear : (afterFmt s).err = 0 := (afterFmt_err s).trans h0
  refine ⟨afterFmt s, exec_fmt_of_clear h0, ?_, ?_⟩
  · have hparse : parseText (alphabet (activeRegion (afterFmt s))) (activeText (afterFmt s)) =
        some ((List.range s.len.toNat).map (symAt s.sym)) := by
      rw [activeText_afterFmt hs, activeRegion_afterFmt]
      exact parseText_groupedText _ _ _
    rw [exec_parse_of_some hclear hparse, List.length_map, List.length_range, afterFmt_len,
      if_pos rfl, afterFmt_sym, loadSyms_self, State.setSyms_of_eq (afterFmt_sym s)]
  · rw [exec_fmt_of_clear hclear, afterFmt_afterFmt]

/-- Settles O43: the text parses to the list, whose symbols are loaded one by one. -/
theorem parseReadsTheSymbols : Obligations.ParseReadsTheSymbols := by
  unfold Obligations.ParseReadsTheSymbols
  intro s vs h0 hvs hlen
  have hexec := exec_parse_of_some h0 (parseText_activeText hvs)
  rw [List.length_map, if_pos hlen] at hexec
  refine ⟨_, hexec, rfl, fun i => ?_⟩
  have hload := symAt_loadSyms s.sym (vs.map BitVec.ofFin) i.isLt
  rw [symAt_of_lt _ i.isLt, symAt_of_lt _ i.isLt] at hload
  rw [State.setSyms_sym, Fin.getElem_fin, hload]
  split
  next hi => rw [List.getD_eq_getElem _ _ (by rwa [List.length_map]), List.getElem_map]; rfl
  next hi => rw [List.getD_eq_default _ _ (by rw [List.length_map]; omega)]; rfl

/-- Settles O44: the bad character stops the parse before any count is taken. -/
theorem parseRejectsBadText : Obligations.ParseRejectsBadText := by
  unfold Obligations.ParseRejectsBadText
  intro s h0
  refine ⟨?_, fun vs hvs hlen => ?_⟩
  · rintro ⟨c, hc, hsp, hbad⟩
    rw [← alphabet_activeRegion] at hbad
    exact exec_parse_of_bad h0 hc hsp ((forall_glyph (p := (· ≠ c))).mpr hbad)
  · rw [exec_parse_of_some h0 (parseText_activeText hvs), List.length_map, if_neg hlen]
    rfl

/-- Settles O45: such a character is not printable, so it is none of either alphabet; and it is not
the space that PARSE drops. -/
theorem otherWhitespaceIsRejected : Obligations.OtherWhitespaceIsRejected := by
  unfold Obligations.OtherWhitespaceIsRejected
  intro s c h0 hc
  have hprint := isPrintable_eq_false_of_control_or_white_space hc
  refine ⟨fun hval => ?_, ?_⟩
  · exact exec_lutr_of_none h0 (symbolOf_of_not_printable _ (hval ▸ hprint))
  · rintro ⟨d, hd, rfl⟩
    have hsp : d ≠ 0x20 := by
      rintro rfl
      revert hc
      decide
    exact exec_parse_of_bad h0 hd hsp (glyph_ne hprint _)

/-- Settles O38: each of the 28 is a settled entry, and so the reference's. -/
theorem sourceSettlesTheseUSCharacters : Obligations.SourceSettlesTheseUSCharacters := by
  unfold Obligations.SourceSettlesTheseUSCharacters
  and_intros <;> exact alphaUS_of_settled (by decide)

end Sys2Proof.Proofs
end

/-! ## The field layouts (44_field_maps.md)

The key field and the bytes of the ring mask as numbers, and the reason why a layout covers its
bits, come first; the obligations of the family follow them. -/

section
namespace Sys2Proof.Machine

/-! ### The key field (44_field_maps.md R180) -/

/-- The field (0,3) is bits 5, 4 and 3 of `SYM[0]`, the first stream bit least significant. -/
theorem fieldValue_keyField (m : Symbols) :
    fieldValue m 0 3 =
      m[0].toNat / 32 % 2 + 2 * (m[0].toNat / 16 % 2) + 4 * (m[0].toNat / 8 % 2) := by
  have hbit5 : sbit m 0 = m[0].toNat.testBit 5 := sbit_of_symbol_bit m 0 (j := 5) (by decide)
  have hbit4 : sbit m 1 = m[0].toNat.testBit 4 := sbit_of_symbol_bit m 0 (j := 4) (by decide)
  have hbit3 : sbit m 2 = m[0].toNat.testBit 3 := sbit_of_symbol_bit m 0 (j := 3) (by decide)
  simp only [fieldValue, Nat.reduceAdd, Nat.add_zero, hbit5, hbit4, hbit3, Nat.toNat_testBit]
  omega

/-! ### The ring mask (44_field_maps.md R184) -/

/-- Bit `i` of mask byte `j + 1` is the stream bit `i` places past the byte's offset. -/
theorem getLsbD_ringByte (m : Symbols) (j : Fin 8) (i : Nat) :
    (ringByte (ringMask m) j).getLsbD i =
      (decide (i < 8) && sbit m ((ringByteOffset j).toNat + i)) := by
  rw [ringByte, BitVec.getLsbD_extractLsb']
  by_cases hi : i < 8
  · have hbyte : Fin.ofNat 8 ((8 * j.val + i) / 8) = j := Fin.ext (by
      rw [Fin.val_ofNat]; omega)
    have hbit : (8 * j.val + i) % 8 = i := by omega
    rw [getLsbD_ringMask m (by omega), hbyte, hbit]
  · rw [decide_eq_false hi, Bool.false_and, Bool.false_and]

/-- The field of a mask byte is the byte. -/
theorem fieldValue_ringByteOffset (m : Symbols) (j : Fin 8) :
    fieldValue m (ringByteOffset j).toNat 8 = (ringByte (ringMask m) j).toNat :=
  Nat.eq_of_testBit_eq fun i =>
    (testBit_fieldValue m _ 8 i).trans (getLsbD_ringByte m j i).symm

/-- Every mask byte lies before the last of the 15 symbols, which holds the checksum. -/
theorem ringByteOffset_le : ∀ j, (ringByteOffset j).toNat + 8 ≤ 84 := by decide

/-- The offsets of R184's table, in the order of the bytes' numbers. -/
theorem ringByteOffset_eq_getD :
    ∀ j : Fin 8, [20, 28, 36, 44, 60, 68, 76, 52].getD j.val 0 = ringByteOffset j := by decide

/-! ### Layouts (44_field_maps.md R183 to R185) -/

/-- Each field begins at the stream bit where the one before it ends: the first at `a`, and the last
ends at `b`. -/
def abut (a b : Nat) : List FieldEntry → Bool
  | [] => a == b
  | f :: fs => f.off.toNat == a && abut (a + f.wid.toNat) b fs

/-- The fields of a layout in the order of their offsets. -/
def inStreamOrder (fs : List FieldEntry) : List FieldEntry :=
  fs.insertionSort fun f g => f.off.toNat ≤ g.off.toNat

theorem inStreamOrder_perm (fs : List FieldEntry) : (inStreamOrder fs).Perm fs :=
  List.perm_insertionSort _ fs

section
variable {fs : List FieldEntry} {a b p : Nat}

theorem le_of_abut (h : abut a b fs) : a ≤ b := by
  induction fs generalizing a with
  | nil => exact (beq_iff_eq.mp h).le
  | cons f fs ih =>
    have hrest := (Bool.and_eq_true_iff.mp h).2
    exact (Nat.le_add_right ..).trans (ih hrest)

/-- Fields that abut cover each stream bit between their ends once, and no other. -/
theorem countP_covers_of_abut (h : abut a b fs) :
    fs.countP (·.covers p) = if a ≤ p ∧ p < b then 1 else 0 := by
  induction fs generalizing a with
  | nil =>
    obtain rfl := beq_iff_eq.mp h
    rw [List.countP_nil, if_neg (by omega)]
  | cons f fs ih =>
    obtain ⟨hoff, hrest⟩ := Bool.and_eq_true_iff.mp h
    obtain rfl := beq_iff_eq.mp hoff
    have hend := le_of_abut hrest
    have hcov : f.covers p = true ↔ f.off.toNat ≤ p ∧ p < f.off.toNat + f.wid.toNat := by
      rw [FieldEntry.covers, Bool.and_eq_true, decide_eq_true_iff, decide_eq_true_iff]
    rw [List.countP_cons, ih hrest]
    simp only [hcov]
    split_ifs <;> omega

/-- A layout whose fields abut in stream order covers each of its bits once: the order in which it
lists them does not matter. -/
theorem covered_once (h : abut 0 b (inStreamOrder fs)) (hp : p < b) :
    (fs.filter fun f => f.covers p).length = 1 := by
  rw [← List.countP_eq_length_filter, ← (inStreamOrder_perm fs).countP_eq]
  exact (countP_covers_of_abut h).trans (if_pos ⟨p.zero_le, hp⟩)

end

end Sys2Proof.Machine
end

section
namespace Sys2Proof.Proofs
open Sys2Proof.Machine

/-! ### The obligations of the family of the field layouts -/

/-- Settles O25: a legal secret has a symbol 0, so EXT's check passes; the engine key has 3 bits. -/
theorem keyFieldReversesTheEngineKey : Obligations.KeyFieldReversesTheEngineKey := by
  unfold Obligations.KeyFieldReversesTheEngineKey
  intro s hs h0
  obtain ⟨⟨hlen, _⟩, _, _⟩ := hs
  have hfits : (0 : BitVec 7).toNat + (3 : BitVec 6).toNat ≤ 6 * s.len.toNat :=
    show 3 ≤ 6 * s.len.toNat by omega
  have hsym := s.sym[0].isLt
  refine ⟨_, exec_ext_of_fits h0 (by decide) hfits, ?_⟩
  rw [State.setVal_val, toNat_ofNat_fieldValue (by decide)]
  refine (fieldValue_keyField s.sym).trans ?_
  omega

/-- Settles O60: each byte lies in the 15 symbols, and its field is the byte bit by bit. -/
theorem ringMaskIsItsBytes : Obligations.RingMaskIsItsBytes := by
  unfold Obligations.RingMaskIsItsBytes
  intro s j _ h0 hlen
  rw [ringByteOffset_eq_getD]
  have hfits : (ringByteOffset j).toNat + (8 : BitVec 6).toNat ≤ 6 * s.len.toNat := by
    rw [hlen]
    exact (ringByteOffset_le j).trans (by decide)
  have hval : (s.setVal (BitVec.ofNat 32 (fieldValue s.sym (ringByteOffset j).toNat 8))).val.toNat =
      (ringByte (ringMask s.sym) j).toNat := by
    rw [State.setVal_val, toNat_ofNat_fieldValue (by decide), fieldValue_ringByteOffset]
  exact ⟨_, exec_ext_of_fits h0 (by decide) hfits, rfl, hval.trans (toNat_ringByte _ j), hval⟩

/-- Settles O59: in stream order the fields of each layout abut. -/
theorem fieldMapsCoverTheirBits : Obligations.FieldMapsCoverTheirBits := by
  unfold Obligations.FieldMapsCoverTheirBits
  have hgame : abut 0 114 (inStreamOrder gameFields) := by decide
  have hring : abut 0 84 (inStreamOrder ringFields) := by decide
  have hmemory : abut 0 24 (inStreamOrder memoryFields) := by decide
  exact ⟨fun p => covered_once hgame p.isLt, fun p => covered_once hring p.isLt,
    fun p => covered_once hmemory p.isLt⟩

end Sys2Proof.Proofs
end

/-! ## The control commands: NOP and CLRERR (45_control.md)

Each of the two opcodes has one command, and that command has one word, so every other word with the
opcode is malformed; the obligations of the family follow. -/

section
namespace Sys2Proof

theorem opField_encode (i : Instr) : opField (encode i) = i.opcode := by
  rw [encode_eq_assemble, opField_assemble]

theorem opcode_of_decode {c : Word} {i : Instr} (h : decode c = .ok i) :
    c.toNat % 64 = i.opcode.toNat := by
  obtain ⟨_, henc⟩ := encode_of_decode h
  obtain ⟨hop, _⟩ := toNat_fields c
  rw [← hop, ← henc, opField_encode]

/-- Where one command alone has an opcode, its word is the only command with that opcode
(30_encoding.md R71, R75). -/
theorem no_decode_of_opcode {c : Word} {i : Instr} (honly : ∀ j, j.opcode = i.opcode → j = i)
    (hop : c.toNat % 64 = i.opcode.toNat) (hc : c ≠ encode i) : ¬ ∃ j, decode c = .ok j := by
  rintro ⟨j, hj⟩
  have hji : j = i := honly j (BitVec.eq_of_toNat_eq ((opcode_of_decode hj).symm.trans hop))
  obtain ⟨_, henc⟩ := encode_of_decode hj
  exact hc (by rw [← henc, hji])

theorem eq_nop_of_opcode (i : Instr) (h : i.opcode = 0) : i = .nop := by
  cases i with
  | nop => rfl
  | _ => simp [Instr.opcode] at h

theorem eq_clrerr_of_opcode (i : Instr) (h : i.opcode = 1) : i = .clrerr := by
  cases i with
  | clrerr => rfl
  | _ => simp [Instr.opcode] at h

end Sys2Proof
end

section
namespace Sys2Proof.Machine

variable {s : State} {c : Word} {rest : List HostEvent}

theorem exec_nop (s : State) : exec .nop s = .next s := rfl

theorem exec_clrerr (s : State) : exec .clrerr s = .next (s.setErr 0) := rfl

/-- A write to CMD of a word that is no command raises ILLEGAL_CMD, on the latch of before it. -/
theorem step_writeCmd_of_no_command (h : NextIsWrite s (regOffset .cmd) c rest)
    (hno : ¬ ∃ i, decode c = .ok i) :
    step s = .next (if s.err = 0 then (s.acceptedWrite rest).setErr ErrCode.illegalCmd.code
      else s.acceptedWrite rest) := by
  rw [step_writeCmd h, runCommand_of_no_command hno, raise_acceptedWrite]

end Sys2Proof.Machine
end

section
namespace Sys2Proof.Proofs
open Sys2Proof.Machine

/-! ### The obligations of the family of the control commands -/

/-- Settles O12: NOP is the one command with opcode 0, so no other word with it decodes. -/
theorem nopDoesNothing : Obligations.NopDoesNothing := by
  unfold Obligations.NopDoesNothing
  refine ⟨decode_encode (i := .nop) rfl, exec_nop, fun s c rest h hop hc => ?_⟩
  exact step_writeCmd_of_no_command h (no_decode_of_opcode (i := .nop) eq_nop_of_opcode hop hc)

/-- Settles O13: CLRERR is the one command with opcode 1, so no other word with it decodes; under the
latch the other commands are ignored. -/
theorem clrerrClearsTheLatch : Obligations.ClrerrClearsTheLatch := by
  unfold Obligations.ClrerrClearsTheLatch
  refine ⟨decode_encode (i := .clrerr) rfl, exec_clrerr, fun s c rest h hop hc => ?_,
    fun i s herr hi => exec_of_latched herr hi⟩
  exact step_writeCmd_of_no_command h
    (no_decode_of_opcode (i := .clrerr) eq_clrerr_of_opcode hop hc)

end Sys2Proof.Proofs
end

/-! ## The error outcome (60_exceptions.md)

An error is latched in one way: its code goes into a latch that was 0, and nothing else changes. Each
layer of the model, from the error outcome up to the step, is held to it in turn. -/

section
namespace Sys2Proof.Machine

/-- `t` is `s` after an error: the latch was 0, and it alone was written, with the code of an error
(60_exceptions.md R212). -/
def LatchesError (s t : State) : Prop := s.err = 0 ∧ ∃ e : ErrCode, t = s.setErr e.code

variable {i : Instr} {s t : State} {a : Access}

/-- No effect on a data register touches the latch. -/
theorem Effect.keeps_err (he : Effect s i t) : t.err = s.err := by
  cases he <;> simp

theorem raise_latchesError {e : ErrCode} (hne : (raise e s).err ≠ s.err) :
    LatchesError s (raise e s) := by
  rcases raise_cases e s with ⟨_, h⟩ | ⟨h0, h⟩
  · exact absurd (congrArg State.err h) hne
  · exact ⟨h0, e, h⟩

/-- A command that changes the latch to a nonzero value raises an error and does nothing else: CLRERR
leaves 0 there, and an effect leaves the latch alone. -/
theorem exec_latchesError (h : exec i s = .next t) (hne : t.err ≠ s.err) (hnz : t.err ≠ 0) :
    LatchesError s t := by
  rcases exec_cases h with rfl | ⟨h0, e, rfl⟩ | ⟨_, rfl⟩ | ⟨_, he⟩
  · exact absurd rfl hne
  · exact ⟨h0, e, rfl⟩
  · exact absurd rfl hnz
  · exact absurd he.keeps_err hne

theorem runCommand_latchesError {c : Word} (h : runCommand c s = .next t) (hne : t.err ≠ s.err)
    (hnz : t.err ≠ 0) : LatchesError s t := by
  rcases runCommand_cases c s with ⟨i, _, hrun⟩ | ⟨_, _, hrun⟩
  · exact exec_latchesError (hrun.symm.trans h) hne hnz
  · obtain rfl := next_inj.mp (hrun.symm.trans h)
    exact raise_latchesError hne

theorem writeReg_latchesError {v : Word} {r : Reg} (hne : (writeReg v s r).err ≠ s.err) :
    LatchesError s (writeReg v s r) := by
  rcases writeReg_cases v s r with ⟨e, h⟩ | ⟨_, _, herr⟩
  · rw [h] at hne ⊢; exact raise_latchesError hne
  · exact absurd herr hne

/-- An access latches an error as a write that the host port has accepted; a read raises none. -/
theorem hostAccess_latchesError (h : hostAccess a s = .next t) (hne : t.err ≠ s.err)
    (hnz : t.err ≠ 0) : LatchesError (s.setResp .done) t := by
  obtain ⟨_, ⟨_, rfl⟩ | ⟨v, _, _, hrun⟩ | ⟨v, _, _, rfl⟩⟩ := hostAccess_cases h
  · exact absurd rfl hne
  · exact runCommand_latchesError hrun hne hnz
  · exact writeReg_latchesError hne

/-- A step latches an error by an accepted write alone: the idle SCU keeps the latch, and a reset
leaves 0 there. -/
theorem step_latchesError (h : step s = .next t) (hne : t.err ≠ s.err) (hnz : t.err ≠ 0) :
    ∃ rest, LatchesError (s.acceptedWrite rest) t := by
  rcases step_cases h with ⟨_, rfl⟩ | ⟨rest, _, rfl⟩ | ⟨a, rest, _, hacc⟩
  · exact absurd rfl hne
  · exact absurd rfl hnz
  · exact ⟨rest, hostAccess_latchesError hacc hne hnz⟩

end Sys2Proof.Machine
end

section
namespace Sys2Proof.Proofs
open Sys2Proof.Machine

/-! ### The obligation of the family of the error outcome -/

/-- Settles O16: the error's code is all that the step writes beside the model's own two fields. -/
theorem errorsChangeOnlyTheLatch : Obligations.ErrorsChangeOnlyTheLatch := by
  unfold Obligations.ErrorsChangeOnlyTheLatch
  intro s t h hne hnz
  obtain ⟨rest, h0, e, rfl⟩ := step_latchesError h hne hnz
  obtain ⟨hlow, hhigh⟩ := e.code_bounds
  exact ⟨h0, hlow, hhigh, rfl⟩

end Sys2Proof.Proofs
end

/-! ## Reset and the idle SCU (70_reset_and_hazards.md)

The step's equations for a reset and for no event stand among those of the state's steps. -/

section
namespace Sys2Proof.Proofs
open Sys2Proof.Machine

/-! ### The obligation of the family of reset -/

/-- Settles O57: the step's two equations that serve no access. -/
theorem resetAndIdleSteps : Obligations.ResetAndIdleSteps := by
  unfold Obligations.ResetAndIdleSteps
  intro s rest
  exact ⟨step_of_reset, step_of_inputs_nil⟩

end Sys2Proof.Proofs
end
